-- ==== Sys2Proof/Word.lean ====
section
/-! DEFINITION. The widths of the machine: bytes, 64-bit words and register indices (spec/00_scope.md R5, R7). -/

namespace Sys2Proof

/-- A byte of the program space, 0 to 255 (R7). -/
abbrev Byte := BitVec 8

/-- A 64-bit word: a register payload, an immediate, the program counter (R5 `XLEN`, R6 `PCW`). -/
abbrev Word := BitVec 64

/-- A register index as an instruction carries it: one byte, so every value names a register (R5 `RIDX`, R21). -/
abbrev RegIdx := BitVec 8

end Sys2Proof
end

