-- ==== Sys2Proof/Config.lean ====
section
/-! DEFINITION. What is fixed for the life of the machine (R39): the closed set of operations, the kinds of operand
field, the encoder's tokens and its one error, and the parameters of R5 and R6 that no rule of an instruction reads.
The opcode map and the operand shapes are in Decode.lean; the parameters that instructions read (`COERCE`,
`OVERFLOW_POLICY`, `DIV_ROUNDING`, `REM_DEF`, `REL_BASE`, `REL_RANGE`, `JNE_MATCH`, `DEREF_MISSING_BLOCK`) are one
definition each in Machine/Operands.lean, Machine/Flags.lean and Machine/Ops.lean. -/

namespace Sys2Proof

/-- The closed enumeration of operations: the 20 defined ones and the sentinel Illegal (R1, R12, R86). -/
inductive Operation where
  | halt | load | add | sub | mul | div | jmp | jumpForward | jumpBackward | cmp
  | jeq | jne | jgt | jlt | jumpGreaterOrEqual | jumpLessOrEqual
  | write | writePointer | loadPointer | dereference
  | illegal
  deriving DecidableEq, Repr

/-- The three kinds of operand field (R81). -/
inductive FieldKind where
  /-- one byte, a register index -/
  | reg
  /-- eight bytes, big-endian sign-magnitude -/
  | simm
  /-- eight bytes, big-endian plain unsigned -/
  | uimm
  deriving DecidableEq, Repr

/-- An operand token of a structured instruction, the encoder's input (R12, R90). -/
inductive Token where
  | register (i : RegIdx)
  | positiveInteger (m : Word)
  /-- logically negative: stands for `-m` -/
  | negativeInteger (m : Word)
  deriving DecidableEq, Repr

/-- The already-classified tokens the core receives from the lexer (R98, R99). The lexer itself is out of scope (R4). -/
inductive LexToken where
  | opcode (op : Operation)
  | registerIndex (i : RegIdx)
  /-- a signed integer literal, as its sign and its absolute value -/
  | signedLiteral (negative : Bool) (magnitude : Word)
  | pointerLiteral (p : Word)
  deriving DecidableEq, Repr

/-- The encoder's only error (R220, R226), with the operation it was given, if it was given one. -/
inductive EncodeError where
  | encodeArityMismatch (op : Option Operation)
  deriving DecidableEq, Repr

namespace Config

/-- `NREGS`: the number of general registers (R5, R21). -/
abbrev nregs : Nat := 256

/-- `PROG_MAX`: the greatest length of the program buffer (R6, R38; the spec's decision D27, log entry 8). -/
abbrev progMax : Nat := 2 ^ 64 - 1

/-- `PROG_INIT`: the program buffer at reset (R6, R38, R40; the spec's decision D17, log entry 21). -/
def progInit : List Byte := []

/-- `REM_RESET`: the remainder register at reset (R6, R33, R40; the spec's decision D16, log entry 21). -/
def remReset : Word := 0

/-- The most slots a block can hold: every u64 index is addressable and nothing else bounds a block
(R55, R57, parameter `HEAP_SLOT_LIMIT` at its default; the spec's decision D20, log entry 23). -/
abbrev maxSlots : Nat := 2 ^ 64

end Config

end Sys2Proof
end

