-- ==== Sys2Proof/Syntax.lean ====
section
/-! DEFINITION. The instructions, one constructor per row of spec/opcode_table.json (its five Illegal rows are one
operation, so one constructor). An 8-byte immediate is kept as the 64-bit word that its bytes spell, so that the two
words that `sm_decode` reads as 0 stay two instructions (R83; log entry 6). -/

namespace Sys2Proof

/-- A decoded instruction: the operation and its operand fields in stream order (R88). -/
inductive Instr where
  /-- Halt (R126) -/
  | halt
  /-- Load: destination, `SIMM` word (R140) -/
  | load (rd : RegIdx) (imm : Word)
  /-- Add: src1, src2, dest (R150) -/
  | add (rs1 rs2 rd : RegIdx)
  /-- Sub: src1, src2, dest (R151) -/
  | sub (rs1 rs2 rd : RegIdx)
  /-- Mul: src1, src2, dest (R152) -/
  | mul (rs1 rs2 rd : RegIdx)
  /-- Div: dividend, divisor, dest (R153) -/
  | div (rs1 rs2 rd : RegIdx)
  /-- Jmp: register holding the absolute target (R170) -/
  | jmp (rt : RegIdx)
  /-- JumpForward: register holding the distance (R171) -/
  | jumpForward (rt : RegIdx)
  /-- JumpBackward: register holding the distance (R172) -/
  | jumpBackward (rt : RegIdx)
  /-- Cmp: first and second register compared (R180) -/
  | cmp (ra rb : RegIdx)
  /-- Jeq (R182) -/
  | jeq (rt : RegIdx)
  /-- Jne (R183) -/
  | jne (rt : RegIdx)
  /-- Jgt (R184) -/
  | jgt (rt : RegIdx)
  /-- Jlt (R185) -/
  | jlt (rt : RegIdx)
  /-- JumpGreaterOrEqual (R186) -/
  | jumpGreaterOrEqual (rt : RegIdx)
  /-- JumpLessOrEqual (R187) -/
  | jumpLessOrEqual (rt : RegIdx)
  /-- Write: block-id register, offset register, `SIMM` word (R201) -/
  | write (rb ro : RegIdx) (imm : Word)
  /-- WritePointer: block-id register, offset register, `UIMM` word (R202) -/
  | writePointer (rb ro : RegIdx) (imm : Word)
  /-- LoadPointer: destination, `UIMM` word (R141) -/
  | loadPointer (rd : RegIdx) (imm : Word)
  /-- Dereference: block-id register, offset register, destination (R203) -/
  | dereference (rb ro rd : RegIdx)
  /-- Illegal: the opcode byte that was consumed (R127) -/
  | illegal (opcode : Byte)
  deriving DecidableEq, Repr

end Sys2Proof
end

