-- ==== Sys2Proof/WellFormed.lean ====
section
/-! DEFINITION. Which terms of `Instr` stand for bytes of a program. -/

namespace Sys2Proof

/-- Every operand field admits every value (R89: "Within an instruction no bit is reserved"); only the byte that an
Illegal carries is limited: it is 20 or above (R86, R89). -/
def Instr.wf : Instr → Bool
  | .illegal b => decide (20 ≤ b.toNat)
  | .halt | .load _ _ | .add _ _ _ | .sub _ _ _ | .mul _ _ _ | .div _ _ _
  | .jmp _ | .jumpForward _ | .jumpBackward _ | .cmp _ _
  | .jeq _ | .jne _ | .jgt _ | .jlt _ | .jumpGreaterOrEqual _ | .jumpLessOrEqual _
  | .write _ _ _ | .writePointer _ _ _ | .loadPointer _ _ | .dereference _ _ _ => true

end Sys2Proof
end

