-- ==== Sys2Proof/Decode.lean ====
section
/-! DEFINITION. The binary format (spec/30_encoding.md): the opcode map and operand shapes, byte order and immediates,
the decoder (total on any bytes, rejecting by name), the words of an instruction, and the hardware's own checked
encoder of structured instructions. -/

namespace Sys2Proof

/-! ### The opcode map and the operand shapes (R86 to R88) -/

/-- `OPCODE_MAP` (R86). Halt 0, Load 1, Add 2, Jeq 10 and Write 16 are the source's; the other fifteen values are the
spec's decision D1 (log entry 9). -/
def opcodeMap : List (Byte × Operation) :=
  [ (0x00, .halt), (0x01, .load), (0x02, .add), (0x03, .sub), (0x04, .mul), (0x05, .div),
    (0x06, .jmp), (0x07, .jumpForward), (0x08, .jumpBackward), (0x09, .cmp) ] ++
  [ (0x0A, .jeq), (0x0B, .jne), (0x0C, .jgt), (0x0D, .jlt),
    (0x0E, .jumpGreaterOrEqual), (0x0F, .jumpLessOrEqual) ] ++
  [ (0x10, .write), (0x11, .writePointer), (0x12, .loadPointer), (0x13, .dereference) ]

/-- `decode_op`: total on bytes, Illegal outside the map (R87). -/
def decodeOp (b : Byte) : Operation := (opcodeMap.lookup b).getD .illegal

/-- `encode_op`: the opcode value of a defined operation; Illegal has none (R87, R94). -/
def encodeOp (op : Operation) : Option Byte := (opcodeMap.find? fun row => row.2 == op).map Prod.fst

/-- `shape(op)`: the operand fields in stream order (R88). -/
def Operation.shape : Operation → List FieldKind
  | .halt => []
  | .load => [.reg, .simm]
  | .add => [.reg, .reg, .reg]
  | .sub => [.reg, .reg, .reg]
  | .mul => [.reg, .reg, .reg]
  | .div => [.reg, .reg, .reg]
  | .jmp => [.reg]
  | .jumpForward => [.reg]
  | .jumpBackward => [.reg]
  | .cmp => [.reg, .reg]
  | .jeq => [.reg]
  | .jne => [.reg]
  | .jgt => [.reg]
  | .jlt => [.reg]
  | .jumpGreaterOrEqual => [.reg]
  | .jumpLessOrEqual => [.reg]
  | .write => [.reg, .reg, .simm]
  | .writePointer => [.reg, .reg, .uimm]
  | .loadPointer => [.reg, .uimm]
  | .dereference => [.reg, .reg, .reg]
  | .illegal => []

/-- The size of a field in bytes (R81). -/
def FieldKind.size : FieldKind → Nat
  | .reg => 1
  | .simm => 8
  | .uimm => 8

/-- `L(op)`: one opcode byte and the fields of the shape (R88, R97). -/
def Operation.length (op : Operation) : Nat := 1 + (op.shape.map FieldKind.size).sum

/-! ### Byte order and immediates (R82, R83) -/

/-- `be64`: eight bytes, most significant first (R82, R58). -/
def be64 (b0 b1 b2 b3 b4 b5 b6 b7 : Byte) : Word :=
  BitVec.ofNat 64 (b0.toNat * 2 ^ 56 + b1.toNat * 2 ^ 48 + b2.toNat * 2 ^ 40 + b3.toNat * 2 ^ 32 +
    b4.toNat * 2 ^ 24 + b5.toNat * 2 ^ 16 + b6.toNat * 2 ^ 8 + b7.toNat)

/-- Byte `k` of a word counted from the least significant: bits `8k+7 .. 8k`. -/
def wordByte (w : Word) (k : Nat) : Byte := w.extractLsb' (8 * k) 8

/-- `be64_bytes`: the inverse of `be64` (R82). -/
def be64Bytes (w : Word) : List Byte :=
  [wordByte w 7, wordByte w 6, wordByte w 5, wordByte w 4, wordByte w 3, wordByte w 2, wordByte w 1, wordByte w 0]

/-- `sm_decode`: bit 63 is the sign, bits 62..0 the magnitude (R83). -/
def smDecode (w : Word) : Int :=
  let mag : Int := (w.extractLsb' 0 63).toNat
  if w.getLsbD 63 then -mag else mag

/-! ### The decoder -/

/-- What the bytes from some offset on decode to. -/
inductive Decoded where
  /-- there is no byte: the offset is at or past the end of the buffer (R121 step 1) -/
  | endOfBytes
  /-- the opcode byte is there, but not all `L(op)` bytes are (R121 step 3, R122) -/
  | truncated (op : Operation)
  /-- a whole instruction, and the bytes after it -/
  | instr (i : Instr) (rest : List Byte)
  deriving DecidableEq, Repr

/-- Format `N`: no operand bytes (R85). -/
def formatN (i : Instr) (bs : List Byte) : Option (Instr × List Byte) := some (i, bs)

/-- Format `R`: one register byte (R85). -/
def formatR (mk : RegIdx → Instr) : List Byte → Option (Instr × List Byte)
  | a :: rest => some (mk a, rest)
  | [] => none

/-- Format `RR`: two register bytes (R85). -/
def formatRR (mk : RegIdx → RegIdx → Instr) : List Byte → Option (Instr × List Byte)
  | a :: b :: rest => some (mk a b, rest)
  | [_] => none
  | [] => none

/-- Format `RRR`: three register bytes (R85). -/
def formatRRR (mk : RegIdx → RegIdx → RegIdx → Instr) : List Byte → Option (Instr × List Byte)
  | a :: b :: c :: rest => some (mk a b c, rest)
  | [_, _] => none
  | [_] => none
  | [] => none

/-- An 8-byte immediate field at the head of the bytes (R81, R82). -/
def readImm : List Byte → Option (Word × List Byte)
  | b0 :: b1 :: b2 :: b3 :: b4 :: b5 :: b6 :: b7 :: rest => some (be64 b0 b1 b2 b3 b4 b5 b6 b7, rest)
  | _ => none

/-- Format `RI`: one register byte, eight immediate bytes (R85). -/
def formatRI (mk : RegIdx → Word → Instr) : List Byte → Option (Instr × List Byte)
  | a :: bs => (readImm bs).map fun p => (mk a p.1, p.2)
  | [] => none

/-- Format `RRI`: two register bytes, eight immediate bytes (R85). -/
def formatRRI (mk : RegIdx → RegIdx → Word → Instr) : List Byte → Option (Instr × List Byte)
  | a :: b :: bs => (readImm bs).map fun p => (mk a b p.1, p.2)
  | [_] => none
  | [] => none

/-- Reads the operand bytes of a decoded operation, by its format (R85); nothing when they are cut short. An Illegal
opcode byte is consumed alone (R89). -/
def decodeAs (op : Operation) (opcode : Byte) (bs : List Byte) : Option (Instr × List Byte) :=
  match op with
  | .halt => formatN .halt bs
  | .load => formatRI .load bs
  | .add => formatRRR .add bs
  | .sub => formatRRR .sub bs
  | .mul => formatRRR .mul bs
  | .div => formatRRR .div bs
  | .jmp => formatR .jmp bs
  | .jumpForward => formatR .jumpForward bs
  | .jumpBackward => formatR .jumpBackward bs
  | .cmp => formatRR .cmp bs
  | .jeq => formatR .jeq bs
  | .jne => formatR .jne bs
  | .jgt => formatR .jgt bs
  | .jlt => formatR .jlt bs
  | .jumpGreaterOrEqual => formatR .jumpGreaterOrEqual bs
  | .jumpLessOrEqual => formatR .jumpLessOrEqual bs
  | .write => formatRRI .write bs
  | .writePointer => formatRRI .writePointer bs
  | .loadPointer => formatRI .loadPointer bs
  | .dereference => formatRRR .dereference bs
  | .illegal => formatN (.illegal opcode) bs

/-- The decoder: total on any bytes (R80, R87, R97, R122). -/
def decode : List Byte → Decoded
  | [] => .endOfBytes
  | b :: bs =>
    match decodeAs (decodeOp b) b bs with
    | some (i, rest) => .instr i rest
    | none => .truncated (decodeOp b)

/-! ### The bytes of an instruction -/

/-- The bytes of a well-formed instruction, written out from R93; an Illegal is the byte it was read from (R127). -/
def encode : Instr → List Byte
  | .halt => [0]
  | .load rd imm => [1, rd] ++ be64Bytes imm
  | .add rs1 rs2 rd => [2, rs1, rs2, rd]
  | .sub rs1 rs2 rd => [3, rs1, rs2, rd]
  | .mul rs1 rs2 rd => [4, rs1, rs2, rd]
  | .div rs1 rs2 rd => [5, rs1, rs2, rd]
  | .jmp rt => [6, rt]
  | .jumpForward rt => [7, rt]
  | .jumpBackward rt => [8, rt]
  | .cmp ra rb => [9, ra, rb]
  | .jeq rt => [10, rt]
  | .jne rt => [11, rt]
  | .jgt rt => [12, rt]
  | .jlt rt => [13, rt]
  | .jumpGreaterOrEqual rt => [14, rt]
  | .jumpLessOrEqual rt => [15, rt]
  | .write rb ro imm => [16, rb, ro] ++ be64Bytes imm
  | .writePointer rb ro imm => [17, rb, ro] ++ be64Bytes imm
  | .loadPointer rd imm => [18, rd] ++ be64Bytes imm
  | .dereference rb ro rd => [19, rb, ro, rd]
  | .illegal b => [b]

/-- The operation of an instruction. -/
def Instr.operation : Instr → Operation
  | .halt => .halt
  | .load _ _ => .load
  | .add _ _ _ => .add
  | .sub _ _ _ => .sub
  | .mul _ _ _ => .mul
  | .div _ _ _ => .div
  | .jmp _ => .jmp
  | .jumpForward _ => .jumpForward
  | .jumpBackward _ => .jumpBackward
  | .cmp _ _ => .cmp
  | .jeq _ => .jeq
  | .jne _ => .jne
  | .jgt _ => .jgt
  | .jlt _ => .jlt
  | .jumpGreaterOrEqual _ => .jumpGreaterOrEqual
  | .jumpLessOrEqual _ => .jumpLessOrEqual
  | .write _ _ _ => .write
  | .writePointer _ _ _ => .writePointer
  | .loadPointer _ _ => .loadPointer
  | .dereference _ _ _ => .dereference
  | .illegal _ => .illegal

/-- The register fields of an instruction, in stream order (R88). -/
def Instr.registers : Instr → List RegIdx
  | .halt => []
  | .load rd _ => [rd]
  | .add rs1 rs2 rd => [rs1, rs2, rd]
  | .sub rs1 rs2 rd => [rs1, rs2, rd]
  | .mul rs1 rs2 rd => [rs1, rs2, rd]
  | .div rs1 rs2 rd => [rs1, rs2, rd]
  | .jmp rt => [rt]
  | .jumpForward rt => [rt]
  | .jumpBackward rt => [rt]
  | .cmp ra rb => [ra, rb]
  | .jeq rt => [rt]
  | .jne rt => [rt]
  | .jgt rt => [rt]
  | .jlt rt => [rt]
  | .jumpGreaterOrEqual rt => [rt]
  | .jumpLessOrEqual rt => [rt]
  | .write rb ro _ => [rb, ro]
  | .writePointer rb ro _ => [rb, ro]
  | .loadPointer rd _ => [rd]
  | .dereference rb ro rd => [rb, ro, rd]
  | .illegal _ => []

/-- The immediate word of an instruction that has one (R88). -/
def Instr.immediate : Instr → Option Word
  | .load _ imm => some imm
  | .write _ _ imm => some imm
  | .writePointer _ _ imm => some imm
  | .loadPointer _ imm => some imm
  | .halt | .add _ _ _ | .sub _ _ _ | .mul _ _ _ | .div _ _ _
  | .jmp _ | .jumpForward _ | .jumpBackward _ | .cmp _ _
  | .jeq _ | .jne _ | .jgt _ | .jlt _ | .jumpGreaterOrEqual _ | .jumpLessOrEqual _
  | .dereference _ _ _ | .illegal _ => none

/-! ### The encoder of structured instructions (R84, R90 to R94, R99) -/

/-- `m OR 2^63` (R84). -/
def withSignBit (m : Word) : Word := m ||| (1#64 <<< 63)

/-- `emit`: the bytes of one operand token (R84, R91). -/
def Token.emit : Token → List Byte
  | .register i => [i]
  | .positiveInteger m => be64Bytes m
  | .negativeInteger m => be64Bytes (withSignBit m)

/-- `enc_raw`: emission without any check (R91); nothing for Illegal, which has no opcode value (R94). -/
def encRaw (op : Operation) (toks : List Token) : Option (List Byte) :=
  (encodeOp op).map fun b => b :: toks.flatMap Token.emit

/-- `fits`: which token may stand in which field (R92; NegativeInteger in a pointer field is refused by the spec's
decision D18, log entry 22). -/
def Token.fits : Token → FieldKind → Bool
  | .register _, .reg => true
  | .positiveInteger _, .simm => true
  | .negativeInteger _, .simm => true
  | .positiveInteger _, .uimm => true
  | .register _, .simm => false
  | .register _, .uimm => false
  | .positiveInteger _, .reg => false
  | .negativeInteger _, .reg => false
  | .negativeInteger _, .uimm => false

/-- Whether a token list has the arity and the kinds of a shape (R92). -/
def fitsShape : List Token → List FieldKind → Bool
  | [], [] => true
  | t :: ts, k :: ks => t.fits k && fitsShape ts ks
  | [], _ :: _ => false
  | _ :: _, [] => false

/-- The checked encoder, the one this hardware has (R92). Illegal is refused with the same error (R94). -/
def encodeTokens (op : Operation) (toks : List Token) : Except EncodeError (List Byte) :=
  if fitsShape toks op.shape then
    match encRaw op toks with
    | some bytes => .ok bytes
    | none => .error (.encodeArityMismatch (some op))
  else .error (.encodeArityMismatch (some op))

/-- The operand token of a lexer token; an opcode token is none (R99). -/
def LexToken.operand : LexToken → Option Token
  | .opcode _ => none
  | .registerIndex i => some (.register i)
  | .signedLiteral false m => some (.positiveInteger m)
  | .signedLiteral true m => some (.negativeInteger m)
  | .pointerLiteral p => some (.positiveInteger p)

/-- The host operation `encode(instruction) -> bytes` on the lexer's classified tokens (R99, R128): an opcode token in
an operand position, or an operand in the opcode position, is EncodeArityMismatch (R92). -/
def encodeLexed : List LexToken → Except EncodeError (List Byte)
  | .opcode op :: toks =>
    match toks.mapM LexToken.operand with
    | some ts => encodeTokens op ts
    | none => .error (.encodeArityMismatch (some op))
  | .registerIndex _ :: _ => .error (.encodeArityMismatch none)
  | .signedLiteral _ _ :: _ => .error (.encodeArityMismatch none)
  | .pointerLiteral _ :: _ => .error (.encodeArityMismatch none)
  | [] => .error (.encodeArityMismatch none)

/-! ### The table's numbering of an instruction's bits -/

/-- The longest instruction, in bytes (R85: format `RRI`). -/
def maxLength : Nat := 11

/-- The bytes of a word numbered as spec/opcode_table.json numbers it (byte `k` is bits `8k+7 .. 8k`), every bit from
`nbits` up zero, as long as the longest instruction. -/
def layoutBytes (nbits w : Nat) : List Byte :=
  (List.range maxLength).map fun k => BitVec.ofNat 8 ((w % 2 ^ nbits) / 2 ^ (8 * k))

/-- The instruction the decoder reads from a word of the opcode table. -/
def decodeTableWord (nbits w : Nat) : Option Instr :=
  match decode (layoutBytes nbits w) with
  | .instr i _ => some i
  | .truncated _ => none
  | .endOfBytes => none

end Sys2Proof
end

