-- ==== Sys2Proof/Machine/State.lean ====
section
/-! DEFINITION. The machine's state as plain data (spec/10_state.md R20 to R41), the outcomes of a cycle (R123, R220)
and the state after reset (R40). What a cycle reports, halt or fault, is an output of the cycle and no field (R39). -/

namespace Sys2Proof.Machine

/-- A tagged value, what a register or a heap slot holds (R22, R37): `Int` with a signed 64-bit payload, held as its
two's-complement pattern (log entry 4), or `Ptr` with an unsigned 64-bit payload. -/
inductive Value where
  /-- `Int(v)`: `v` is the pattern's signed reading -/
  | int (v : Word)
  /-- `Ptr(p)`: a block identifier -/
  | ptr (p : Word)
  deriving DecidableEq, Repr

/-- `Int(0)`: what a register holds at reset and a slot holds that growth made (R27, R37). -/
abbrev Value.zero : Value := .int 0

/-- The comparison flag (R31). -/
inductive Flag where
  | equal | greater | less | notEqual
  /-- no comparison yet: the reset value -/
  | none
  deriving DecidableEq, Repr

/-- A memory block (R37): its length in slots, and the slots that do not hold `Int(0)`, index rising (R57: "a length
and a finite map from index to non-default value"). The key under which the heap holds it is its identifier. -/
structure Block where
  len : Nat
  slots : List (Nat × Value)
  deriving DecidableEq, Repr

/-- The two memories (R50): the program buffer `P`, bytes by offset from 0 (R38), and the heap `H`, the present blocks
by identifier, identifiers rising (R36). An unlisted identifier has no block; an unlisted slot below its block's
length is `Int(0)`. -/
structure Memory where
  program : List Byte
  heap : List (Nat × Block)
  deriving DecidableEq, Repr

/-- The machine state of R20: registers, pc, flag, remainder and heap, and beside them the program buffer. -/
structure State where
  /-- `x[0..255]` (R21) -/
  regs : Vector Value Config.nregs
  /-- the program counter, a byte offset into the program buffer (R28) -/
  pc : Word
  /-- the comparison flag (R31) -/
  flag : Flag
  /-- the remainder register (R33) -/
  rem : Word
  /-- the program buffer and the heap (R36, R38) -/
  mem : Memory
  deriving DecidableEq, Repr

/-- The faults of a cycle (R220), each with the information R220 says is reported. Each is the spec's own condition,
reported to the host with the state unchanged (R224, R228), so none makes a false claim provable: safe. -/
inductive Fault where
  /-- raised by the cycle for any operation longer than one byte whose bytes the buffer's end cuts short (R221):
  `pc0` and the operation; safe -/
  | decodeError (pc0 : Word) (op : Operation)
  /-- raised by Div when the coerced divisor is 0 (R222): `pc0`; safe -/
  | divisionByZero (pc0 : Word)
  /-- raised by Dereference when the slot does not exist (R223): `pc0`, identifier, index; safe -/
  | heapAccessOutOfRange (pc0 : Word) (id index : Word)
  /-- raised by JumpForward and JumpBackward when the target leaves 0 .. 2^64-1 (R225): `pc0`; safe -/
  | jumpOutOfRange (pc0 : Word)
  deriving DecidableEq, Repr

/-- Reasons a step gives no meaning. No meaning and no step of this model answers one. -/
inductive Refusal where
  /-- raised by an arm of `exec` whose instruction has no meaning yet (no arm now); safe -/
  | notModelled (mnemonic : String)
  deriving DecidableEq, Repr

/-- Why a cycle ended with the halt signal and no fault (R123). -/
inductive HaltReason where
  /-- a Halt instruction ran (R126) -/
  | haltInstruction
  /-- an Illegal opcode byte was consumed (R127, R227): `pc0` and the byte -/
  | unknownOpcode (pc0 : Word) (opcode : Byte)
  /-- the pc is at or past the end of the program buffer (R121 step 1) -/
  | endOfProgram
  deriving DecidableEq, Repr

/-- What a cycle reports to its caller (R121 step 5, R123). -/
inductive Report where
  /-- `continue`: an instruction ran, the caller may run another cycle -/
  | continues
  | halt (reason : HaltReason)
  | fault (f : Fault)
  /-- never reported: every instruction has a meaning -/
  | refused (r : Refusal)
  deriving DecidableEq, Repr

/-- The state after reset, before the first cycle (R40, R250). -/
def State.reset : State where
  regs := Vector.replicate Config.nregs Value.zero
  pc := 0
  flag := .none
  rem := Config.remReset
  mem := { program := Config.progInit, heap := [] }

end Sys2Proof.Machine
end

