-- ==== Sys2Proof/Machine/Ops.lean ====
section
/-! DEFINITION. The named operations over registers, program and heap (spec/20_memory.md R50 to R57), fetching an
instruction (R121), and taking a fault (R224, R228). -/

namespace Sys2Proof.Machine

/-! ### Sparse maps: lists of (key, value), keys rising -/

/-- The value under a key, if the key is listed. -/
def Sparse.get? {α : Type} (k : Nat) : List (Nat × α) → Option α
  | [] => none
  | (j, v) :: rest => if k = j then some v else Sparse.get? k rest

/-- Puts a value under a key, at the key's place in the rising order. -/
def Sparse.put {α : Type} (k : Nat) (v : α) : List (Nat × α) → List (Nat × α)
  | [] => [(k, v)]
  | (j, w) :: rest =>
    if k < j then (k, v) :: (j, w) :: rest
    else if k = j then (k, v) :: rest
    else (j, w) :: Sparse.put k v rest

/-- Takes a key out. -/
def Sparse.erase {α : Type} (k : Nat) (l : List (Nat × α)) : List (Nat × α) := l.filter fun c => c.1 != k

/-- The keys rise strictly. -/
abbrev Sparse.Rising {α : Type} (l : List (Nat × α)) : Prop := (l.map Prod.fst).Pairwise (· < ·)

/-! ### The canonical form of memory -/

/-- A block's canonical form: at least one slot (R204: "a block of length 0 never exists"), at most 2^64, listed slots
rising, below the length, and none of them `Int(0)`. -/
abbrev Block.wf (b : Block) : Prop :=
  0 < b.len ∧ b.len ≤ Config.maxSlots ∧ Sparse.Rising b.slots ∧
    ∀ c ∈ b.slots, c.1 < b.len ∧ c.2 ≠ Value.zero

/-- The canonical form of memory: identifiers are u64 and rise, every block is canonical, and the program buffer is no
longer than `PROG_MAX` (R36, R37, R38). -/
abbrev Memory.wf (m : Memory) : Prop :=
  m.program.length ≤ Config.progMax ∧ Sparse.Rising m.heap ∧
    ∀ c ∈ m.heap, c.1 < 2 ^ 64 ∧ c.2.wf

/-! ### Registers, pc, flag, remainder -/

/-- `x[i]` (R10, R21): every index names a register and none is hardwired. -/
def State.readReg (s : State) (i : RegIdx) : Value := s.regs[i.toNat]'(i.isLt)

/-- `x[i] <- v` (R10). -/
def State.writeReg (s : State) (i : RegIdx) (v : Value) : State :=
  { s with regs := s.regs.set i.toNat v i.isLt }

/-- `pc <- target` (R10). -/
def State.setPc (s : State) (target : Word) : State := { s with pc := target }

/-- Moves the pc past an instruction of `n` bytes (R29; it never wraps where the fetch check passed, R30; log
entry 7). -/
def State.advance (s : State) (n : Nat) : State := s.setPc (s.pc + BitVec.ofNat 64 n)

/-- `flag <- f` (R10). -/
def State.setFlag (s : State) (f : Flag) : State := { s with flag := f }

/-- `rem <- v` (R10). -/
def State.setRem (s : State) (v : Word) : State := { s with rem := v }

/-! ### The heap primitives (R54, R55) -/

/-- `H[id]`: the block, or absent (R10). -/
def Memory.block? (m : Memory) (id : Nat) : Option Block := Sparse.get? id m.heap

/-- `blk.data[k]` for a slot that exists: a slot not listed holds `Int(0)` (R37). -/
def Block.slot (b : Block) (k : Nat) : Value := (Sparse.get? k b.slots).getD Value.zero

/-- `HeapRead` (R54): nothing where the block is absent (`DEREF_MISSING_BLOCK` = fault, the spec's decision D13, log
entry 18) or the index is at or past the block's length. It writes nothing and creates nothing. -/
def Memory.heapRead (m : Memory) (id k : Nat) : Option Value :=
  match m.block? id with
  | none => none
  | some b => if k < b.len then some (b.slot k) else none

/-- The block that a write to an absent identifier starts from (R55). -/
def Block.empty : Block := { len := 0, slots := [] }

/-- The block after a write at index `k`: grown with `Int(0)` until `k` is a slot, `v` at `k` (R55). -/
def Block.store (b : Block) (k : Nat) (v : Value) : Block where
  len := max b.len (k + 1)
  slots := if v = Value.zero then Sparse.erase k b.slots else Sparse.put k v b.slots

/-- `HeapWrite` (R55): creates the block if it is absent, grows it, stores; it never faults. -/
def Memory.heapWrite (m : Memory) (id k : Nat) (v : Value) : Memory :=
  { m with heap := Sparse.put id (((m.block? id).getD Block.empty).store k v) m.heap }

/-- `HeapWrite` on the state's heap. -/
def State.heapWrite (s : State) (id k : Nat) (v : Value) : State := { s with mem := s.mem.heapWrite id k v }

/-! ### The program space -/

/-- The instruction at the pc: the bytes of the program buffer from the pc on, decoded (R121 steps 1 to 3). -/
def fetch (s : State) : Decoded := decode (s.mem.program.drop s.pc.toNat)

/-! ### Faults -/

/-- Taking a fault, the one way every fault of this machine is taken: `raise F(info)` ends the cycle and changes nothing
(R224, R228, R233): nothing is saved, there is no handler, no mode and no vector in the machine; the fault goes to the
host, which still has the state the cycle started from. There is no return from a fault (R229): the machine is ready
for another cycle from that state (`cycle` in Machine/HostOps.lean). -/
def raise (f : Fault) : Host.Outcome State Fault Refusal := .fault f

end Sys2Proof.Machine
end

