-- ==== Sys2Proof/Machine/Operands.lean ====
section
/-! DEFINITION. Operands: the conversions between the number types (R8), the two coercions (R24, R25), results back to
tagged values, the exact results of the arithmetic instructions (R150 to R157), the base of a relative jump (R171) and
the heap's effective address (R200). -/

namespace Sys2Proof.Machine

/-! ### Conversions (R8) -/

/-- `to_u64(n) = n mod 2^64` (R8). -/
def toU64 (n : Int) : Nat := (n % 2 ^ 64).toNat

/-- `to_s64(n)`: the s64 congruent to `n` modulo 2^64 (R8). -/
def toS64 (n : Int) : Int :=
  let m := n % 2 ^ 64
  if m < 2 ^ 63 then m else m - 2 ^ 64

/-! ### Coercions and results -/

/-- `as_s(t)` (R24). A pointer of 2^63 or more reads as a negative number (`COERCE`, the spec's decision D5, log
entry 12). -/
def Value.asS : Value → Int
  | .int v => v.toInt
  | .ptr p => toS64 p.toNat

/-- `as_u(t)` (R25). A negative integer reads as its two's-complement pattern (`COERCE`, the spec's decision D5, log
entry 12). -/
def Value.asU : Value → Nat
  | .ptr p => p.toNat
  | .int v => toU64 v.toInt

/-- `Int(to_s64(n))`: an exact integer result, wrapped into a tagged value (`OVERFLOW_POLICY` = wrap, R156, the spec's
decision D6, log entry 13). -/
def Value.ofInt (n : Int) : Value := .int (BitVec.ofInt 64 n)

/-- `Ptr(n)` for a u64 `n`. -/
def Value.ofAddr (n : Nat) : Value := .ptr (BitVec.ofNat 64 n)

/-! ### Exact arithmetic (R150 to R153); the first source is the left operand (the spec's decision D9, log entry 15) -/

/-- Add: the exact sum (R150). -/
def addExact (a b : Int) : Int := a + b

/-- Sub: src1 minus src2 (R151). -/
def subExact (a b : Int) : Int := a - b

/-- Mul: the exact product (R152). -/
def mulExact (a b : Int) : Int := a * b

/-- `DIV_ROUNDING`: the quotient rounded toward zero (R153, R157; the spec's decision D7, log entry 14). -/
def divQuotient (a b : Int) : Int := Int.tdiv a b

/-- `REM_DEF`: `a - q*b`, zero or of the sign of the dividend (R153, R154; the spec's decision D8, log entry 14). -/
def divRemainder (a b : Int) : Int := a - divQuotient a b * b

/-! ### Relative jumps (R171, R172) -/

/-- `REL_BASE`: the offset after the two bytes of the jump, as an exact number (the spec's decision D3, log
entry 10). -/
def relBase (s : State) : Nat := s.pc.toNat + 2

/-- The greatest value of the pc: `REL_RANGE` (R171; the spec's decision D4, log entry 11). -/
def pcMax : Nat := 2 ^ 64 - 1

/-! ### The heap's effective address (R200) -/

/-- The block identifier: the block-id register's `as_u` (R200). -/
def blockId (s : State) (rb : RegIdx) : Nat := (s.readReg rb).asU

/-- The slot index: the offset register's `as_u` (R200; the spec's decision D12, log entry 17). -/
def slotIndex (s : State) (ro : RegIdx) : Nat := (s.readReg ro).asU

/-- `x[rb] <- Ptr(id)`: the block-id register is overwritten with an explicit pointer tag carrying the same identifier
(R200, R258). -/
def retagBlockReg (s : State) (rb : RegIdx) : State := s.writeReg rb (Value.ofAddr (blockId s rb))

end Sys2Proof.Machine
end

