-- ==== Sys2Proof/Machine/Arithmetic.lean ====
section
/-! DEFINITION. Add, Sub, Mul and Div (spec/42_arithmetic.md). -/

namespace Sys2Proof.Machine

/-- The common frame (R149): both sources are read as signed numbers, then `x[d] <- Int(to_s64(result))`. -/
def arith (result : Int → Int → Int) (rs1 rs2 rd : RegIdx) (s : State) : Host.Outcome State Fault Refusal :=
  .next ((s.writeReg rd (Value.ofInt (result (s.readReg rs1).asS (s.readReg rs2).asS))).advance 4)

/-- Add (R150). -/
def execAdd (rs1 rs2 rd : RegIdx) (s : State) : Host.Outcome State Fault Refusal := arith addExact rs1 rs2 rd s

/-- Sub (R151). -/
def execSub (rs1 rs2 rd : RegIdx) (s : State) : Host.Outcome State Fault Refusal := arith subExact rs1 rs2 rd s

/-- Mul (R152). -/
def execMul (rs1 rs2 rd : RegIdx) (s : State) : Host.Outcome State Fault Refusal := arith mulExact rs1 rs2 rd s

/-- Div (R153): a zero divisor faults before anything is written; otherwise quotient to the destination and remainder,
modulo 2^64, to `rem` (R154). -/
def execDiv (rs1 rs2 rd : RegIdx) (s : State) : Host.Outcome State Fault Refusal :=
  let a := (s.readReg rs1).asS
  let b := (s.readReg rs2).asS
  if b = 0 then raise (.divisionByZero s.pc)
  else arith divQuotient rs1 rs2 rd (s.setRem (BitVec.ofNat 64 (toU64 (divRemainder a b))))

end Sys2Proof.Machine
end

