-- ==== Sys2Proof/Machine/Flags.lean ====
section
/-! DEFINITION. The comparison flag: what Cmp computes (R180) and on which values each conditional jump is taken
(R181, R188). -/

namespace Sys2Proof.Machine

/-- What Cmp leaves in the flag: signed comparison of the first value with the second (R180; the orientation is the
spec's decision D10, log entry 15). -/
def compareFlag (va vb : Int) : Flag :=
  if va = vb then .equal else if va > vb then .greater else .less

/-- `match(Jeq)` = {Equal} (R182). -/
def jeqMatch : Flag → Bool
  | .equal => true
  | .greater => false
  | .less => false
  | .notEqual => false
  | .none => false

/-- `JNE_MATCH` = {Greater, Less, NotEqual} (R183; the spec's decision D11, log entry 16). -/
def jneMatch : Flag → Bool
  | .equal => false
  | .greater => true
  | .less => true
  | .notEqual => true
  | .none => false

/-- `match(Jgt)` = {Greater} (R184). -/
def jgtMatch : Flag → Bool
  | .equal => false
  | .greater => true
  | .less => false
  | .notEqual => false
  | .none => false

/-- `match(Jlt)` = {Less} (R185). -/
def jltMatch : Flag → Bool
  | .equal => false
  | .greater => false
  | .less => true
  | .notEqual => false
  | .none => false

/-- `match(JumpGreaterOrEqual)` = {Greater, Equal} (R186). -/
def jgeMatch : Flag → Bool
  | .equal => true
  | .greater => true
  | .less => false
  | .notEqual => false
  | .none => false

/-- `match(JumpLessOrEqual)` = {Less, Equal} (R187). -/
def jleMatch : Flag → Bool
  | .equal => true
  | .greater => false
  | .less => true
  | .notEqual => false
  | .none => false

end Sys2Proof.Machine
end

