-- ==== Sys2Proof/Machine/Jumps.lean ====
section
/-! DEFINITION. Jmp, JumpForward and JumpBackward (spec/43_jumps.md). -/

namespace Sys2Proof.Machine

/-- The absolute jump (R170): the pc takes the register's `as_u`; any u64 is a target (R173). -/
def jumpAbsolute (rt : RegIdx) (s : State) : Host.Outcome State Fault Refusal :=
  .next (s.setPc (BitVec.ofNat 64 (s.readReg rt).asU))

/-- Jmp (R170). -/
def execJmp (rt : RegIdx) (s : State) : Host.Outcome State Fault Refusal := jumpAbsolute rt s

/-- JumpForward (R171): base plus distance, as an exact sum; past the greatest pc it faults. -/
def execJumpForward (rt : RegIdx) (s : State) : Host.Outcome State Fault Refusal :=
  let tgt := relBase s + (s.readReg rt).asU
  if tgt > pcMax then raise (.jumpOutOfRange s.pc) else .next (s.setPc (BitVec.ofNat 64 tgt))

/-- JumpBackward (R172): base minus distance; below zero it faults. -/
def execJumpBackward (rt : RegIdx) (s : State) : Host.Outcome State Fault Refusal :=
  let dist := (s.readReg rt).asU
  if dist > relBase s then raise (.jumpOutOfRange s.pc) else .next (s.setPc (BitVec.ofNat 64 (relBase s - dist)))

end Sys2Proof.Machine
end

