-- ==== Sys2Proof/Machine/Compare.lean ====
section
/-! DEFINITION. Cmp and the six conditional jumps (spec/44_compare_and_conditional_jumps.md). -/

namespace Sys2Proof.Machine

/-- Cmp (R180): the flag takes the signed comparison of the two registers. -/
def execCmp (ra rb : RegIdx) (s : State) : Host.Outcome State Fault Refusal :=
  .next ((s.setFlag (compareFlag (s.readReg ra).asS (s.readReg rb).asS)).advance 3)

/-- The common frame of the conditional jumps (R181): taken as Jmp, else past the two bytes. -/
def condJump (taken : Flag → Bool) (rt : RegIdx) (s : State) : Host.Outcome State Fault Refusal :=
  if taken s.flag then jumpAbsolute rt s else .next (s.advance 2)

/-- Jeq (R182). -/
def execJeq (rt : RegIdx) (s : State) : Host.Outcome State Fault Refusal := condJump jeqMatch rt s

/-- Jne (R183). -/
def execJne (rt : RegIdx) (s : State) : Host.Outcome State Fault Refusal := condJump jneMatch rt s

/-- Jgt (R184). -/
def execJgt (rt : RegIdx) (s : State) : Host.Outcome State Fault Refusal := condJump jgtMatch rt s

/-- Jlt (R185). -/
def execJlt (rt : RegIdx) (s : State) : Host.Outcome State Fault Refusal := condJump jltMatch rt s

/-- JumpGreaterOrEqual (R186). -/
def execJumpGreaterOrEqual (rt : RegIdx) (s : State) : Host.Outcome State Fault Refusal := condJump jgeMatch rt s

/-- JumpLessOrEqual (R187). -/
def execJumpLessOrEqual (rt : RegIdx) (s : State) : Host.Outcome State Fault Refusal := condJump jleMatch rt s

end Sys2Proof.Machine
end

