-- ==== Sys2Proof/Machine/Control.lean ====
section
/-! DEFINITION. Halt and Illegal (spec/40_cycle_halt_illegal.md R126, R127). Both change the state and so answer a next
state; the halt signal that the cycle reports beside it is `haltOf` (R39: an output, not state; log entry 1). -/

namespace Sys2Proof.Machine

/-- Halt: consumes nothing but its opcode byte (R126). -/
def execHalt (s : State) : Host.Outcome State Fault Refusal := .next (s.advance 1)

/-- Illegal: the opcode byte is consumed alone (R127, R227). The byte itself has no effect on the state. -/
def execIllegal (_opcode : Byte) (s : State) : Host.Outcome State Fault Refusal := .next (s.advance 1)

/-- The halt signal of an instruction that starts at `pc0`, with its reason (R123): Halt and Illegal give one, no other
instruction does. -/
def haltOf (i : Instr) (pc0 : Word) : Option HaltReason :=
  match i with
  | .halt => some .haltInstruction
  | .illegal b => some (.unknownOpcode pc0 b)
  | .load _ _ | .add _ _ _ | .sub _ _ _ | .mul _ _ _ | .div _ _ _
  | .jmp _ | .jumpForward _ | .jumpBackward _ | .cmp _ _
  | .jeq _ | .jne _ | .jgt _ | .jlt _ | .jumpGreaterOrEqual _ | .jumpLessOrEqual _
  | .write _ _ _ | .writePointer _ _ _ | .loadPointer _ _ | .dereference _ _ _ => none

end Sys2Proof.Machine
end

