-- ==== Sys2Proof/Machine/HeapAccess.lean ====
section
/-! DEFINITION. Write, WritePointer and Dereference (spec/45_heap_access.md). -/

namespace Sys2Proof.Machine

/-- The frame of Write and WritePointer (R201, R202): store, retag the block-id register, move past 11 bytes. -/
def writeSlot (rb ro : RegIdx) (v : Value) (s : State) : Host.Outcome State Fault Refusal :=
  .next ((retagBlockReg (s.heapWrite (blockId s rb) (slotIndex s ro) v) rb).advance 11)

/-- Write (R201): the slot takes `Int(sm_decode(w))`. -/
def execWrite (rb ro : RegIdx) (imm : Word) (s : State) : Host.Outcome State Fault Refusal :=
  writeSlot rb ro (Value.ofInt (smDecode imm)) s

/-- WritePointer (R202): the slot takes `Ptr(w)`. -/
def execWritePointer (rb ro : RegIdx) (imm : Word) (s : State) : Host.Outcome State Fault Refusal :=
  writeSlot rb ro (.ptr imm) s

/-- Dereference (R203): a slot that does not exist faults and nothing is written; else the block-id register is
retagged, and after it the destination takes the slot's value, tag included, and wins where they are one register
(the spec's decision D25, log entry 19). -/
def execDereference (rb ro rd : RegIdx) (s : State) : Host.Outcome State Fault Refusal :=
  match s.mem.heapRead (blockId s rb) (slotIndex s ro) with
  | none => raise (.heapAccessOutOfRange s.pc (BitVec.ofNat 64 (blockId s rb)) (BitVec.ofNat 64 (slotIndex s ro)))
  | some v => .next (((retagBlockReg s rb).writeReg rd v).advance 4)

end Sys2Proof.Machine
end

