-- ==== Sys2Proof/Machine/LoadImmediate.lean ====
section
/-! DEFINITION. Load and LoadPointer (spec/41_load_immediate.md). -/

namespace Sys2Proof.Machine

/-- The frame both share: one register is written, the pc moves past 10 bytes. -/
def loadValue (rd : RegIdx) (v : Value) (s : State) : Host.Outcome State Fault Refusal :=
  .next ((s.writeReg rd v).advance 10)

/-- Load (R140): `x[d] <- Int(sm_decode(w))`. -/
def execLoad (rd : RegIdx) (imm : Word) (s : State) : Host.Outcome State Fault Refusal :=
  loadValue rd (Value.ofInt (smDecode imm)) s

/-- LoadPointer (R141): `x[d] <- Ptr(w)`. -/
def execLoadPointer (rd : RegIdx) (imm : Word) (s : State) : Host.Outcome State Fault Refusal :=
  loadValue rd (.ptr imm) s

end Sys2Proof.Machine
end

