-- ==== Sys2Proof/Machine/Dispatch.lean ====
section
/-! DEFINITION. One arm per instruction. -/

namespace Sys2Proof.Machine

/-- Step 4 of the cycle (R121): executes the rule of the decoded instruction. -/
def exec (i : Instr) (s : State) : Host.Outcome State Fault Refusal :=
  match i with
  | .halt => Sys2Proof.Machine.execHalt s
  | .load rd imm => Sys2Proof.Machine.execLoad rd imm s
  | .add rs1 rs2 rd => Sys2Proof.Machine.execAdd rs1 rs2 rd s
  | .sub rs1 rs2 rd => Sys2Proof.Machine.execSub rs1 rs2 rd s
  | .mul rs1 rs2 rd => Sys2Proof.Machine.execMul rs1 rs2 rd s
  | .div rs1 rs2 rd => Sys2Proof.Machine.execDiv rs1 rs2 rd s
  | .jmp rt => Sys2Proof.Machine.execJmp rt s
  | .jumpForward rt => Sys2Proof.Machine.execJumpForward rt s
  | .jumpBackward rt => Sys2Proof.Machine.execJumpBackward rt s
  | .cmp ra rb => Sys2Proof.Machine.execCmp ra rb s
  | .jeq rt => Sys2Proof.Machine.execJeq rt s
  | .jne rt => Sys2Proof.Machine.execJne rt s
  | .jgt rt => Sys2Proof.Machine.execJgt rt s
  | .jlt rt => Sys2Proof.Machine.execJlt rt s
  | .jumpGreaterOrEqual rt => Sys2Proof.Machine.execJumpGreaterOrEqual rt s
  | .jumpLessOrEqual rt => Sys2Proof.Machine.execJumpLessOrEqual rt s
  | .write rb ro imm => Sys2Proof.Machine.execWrite rb ro imm s
  | .writePointer rb ro imm => Sys2Proof.Machine.execWritePointer rb ro imm s
  | .loadPointer rd imm => Sys2Proof.Machine.execLoadPointer rd imm s
  | .dereference rb ro rd => Sys2Proof.Machine.execDereference rb ro rd s
  | .illegal opcode => Sys2Proof.Machine.execIllegal opcode s

end Sys2Proof.Machine
end

