-- ==== Sys2Proof/Machine/Step.lean ====
section
/-! DEFINITION. One cycle's change of state (spec/40_cycle_halt_illegal.md R121), and the harness that places an
instruction where it is fetched. -/

namespace Sys2Proof.Machine

/-- One cycle (R121). At or past the end of the program nothing changes (step 1; the halt signal is reported by `cycle`
in Machine/HostOps.lean); an instruction cut short is a DecodeError (step 3, R122); else it runs (step 4). -/
def step (s : State) : Host.Outcome State Fault Refusal :=
  match fetch s with
  | .endOfBytes => .next s
  | .truncated op => raise (.decodeError s.pc op)
  | .instr i _ => exec i s

/-- `s` with an instruction of spec/opcode_table.json placed in the program buffer at the pc, as a host's preload would
leave it (log entry 28). Bytes up to the pc that the buffer does not have yet are 0. -/
def State.withFetchWord (s : State) (nbits w : Nat) : State :=
  let p := s.mem.program
  let at0 := s.pc.toNat
  { s with mem := { s.mem with
      program := p.take at0 ++ List.replicate (at0 - p.length) 0 ++ layoutBytes nbits w ++ p.drop (at0 + maxLength) } }

end Sys2Proof.Machine
end

