-- ==== Sys2Proof/Machine/HostOps.lean ====
section
/-! DEFINITION. What the host sees of the machine and can do to it (spec/40_cycle_halt_illegal.md R120 to R131): the
whole cycle with its report, append, append-and-run-one-cycle, run-to-completion, and the read-only accessors. The
host's fourth operation, encode, is `encodeTokens` and `encodeLexed` of Decode.lean. -/

namespace Sys2Proof.Machine

/-- The halt signal of the cycle that starts from `s`, if that cycle ends with one and without a fault (R123). -/
def haltSignal (s : State) : Option HaltReason :=
  match fetch s with
  | .endOfBytes => some .endOfProgram
  | .truncated _ => none
  | .instr i _ => haltOf i s.pc

/-- The whole cycle (R121): the next state and the report. A fault leaves the state as it was (R224). -/
def cycle (s : State) : State × Report :=
  match step s with
  | .next t =>
    match haltSignal s with
    | some reason => (t, .halt reason)
    | none => (t, .continues)
  | .fault f => (s, .fault f)
  | .refused r => (s, .refused r)

/-- The host's append (R52, R128): `P <- P ++ bytes`. Nothing is given where the buffer would pass `PROG_MAX`, a case
the spec excludes (R38; log entry 8). -/
def append (bytes : List Byte) (s : State) : Option State :=
  if s.mem.program.length + bytes.length ≤ Config.progMax then
    some { s with mem := { s.mem with program := s.mem.program ++ bytes } }
  else none

/-- `append_and_run_one_cycle(bytes)` (R128). -/
def appendAndRunOneCycle (bytes : List Byte) (s : State) : Option (State × Report) := (append bytes s).map cycle

/-- `run_to_completion()` under fuel (R129): the first report that is not `continue`, and the state after it; nothing
when the fuel ends first. -/
def runToCompletion : Nat → State → Option (State × Report)
  | 0, _ => none
  | fuel + 1, s =>
    match cycle s with
    | (t, .continues) => runToCompletion fuel t
    | (t, .halt reason) => some (t, .halt reason)
    | (t, .fault f) => some (t, .fault f)
    | (t, .refused r) => some (t, .refused r)

/-- The host's accessor for a register, tag included (R130). -/
def accessRegister (s : State) (i : RegIdx) : Value := s.readReg i

/-- The host's accessor for the identifiers of the present blocks (R130). -/
def accessHeapIds (s : State) : List Nat := s.mem.heap.map Prod.fst

/-- The host's accessor for a block's length (R130). -/
def accessBlockLength (s : State) (id : Nat) : Option Nat := (s.mem.block? id).map Block.len

/-- The host's accessor for a slot of a block (R130). -/
def accessSlot (s : State) (id k : Nat) : Option Value := s.mem.heapRead id k

/-- The host's accessors for pc, flag and remainder (R130; the spec's decision D28, log entry 25). -/
def accessControl (s : State) : Word × Flag × Word := (s.pc, s.flag, s.rem)

/-- The number of a report, for an implementation that needs one (R220; the spec's decision D21, log entry 24). A
refusal, which is never reported, has none. -/
def Report.code : Report → Option Nat
  | .continues => some 0
  | .halt .haltInstruction => some 1
  | .halt (.unknownOpcode _ _) => some 2
  | .halt .endOfProgram => some 3
  | .fault (.decodeError _ _) => some 16
  | .fault (.divisionByZero _) => some 17
  | .fault (.heapAccessOutOfRange _ _ _) => some 18
  | .fault (.jumpOutOfRange _) => some 19
  | .refused _ => none

/-- The number of the encoder's error (the spec's decision D21, log entry 24). -/
def encodeErrorCode : EncodeError → Nat
  | .encodeArityMismatch _ => 32

end Sys2Proof.Machine
end

