-- ==== Sys2Proof/Safety.lean ====
section
/-! DEFINITION. What claims say of states and runs: the invariant of the state, reachability under the host's
operations, and successful and failed runs (R131). -/

namespace Sys2Proof.Machine

/-- The invariant of every state reached from reset: memory in its canonical form and within its bounds (R36 to R38),
and the flag one of the four values a program can make (R32). -/
abbrev State.wf (s : State) : Prop := s.mem.wf ∧ s.flag ≠ .notEqual

/-- A state some host can bring the machine to: reset, then appends and cycles in any order (R120, R128). -/
inductive Reachable : State → Prop where
  | reset : Reachable State.reset
  | append {s t : State} (bytes : List Byte) (hs : Reachable s) (h : append bytes s = some t) : Reachable t
  | cycle {s : State} (hs : Reachable s) : Reachable (cycle s).1

/-- The run from `s`, with nothing appended, ends after at most `fuel` cycles in a halt: it is successful (R131). -/
def Successful (fuel : Nat) (s t : State) (reason : HaltReason) : Prop :=
  runToCompletion fuel s = some (t, .halt reason)

/-- The run from `s`, with nothing appended, ends after at most `fuel` cycles in a fault: it has failed (R131). -/
def Failed (fuel : Nat) (s t : State) (f : Fault) : Prop := runToCompletion fuel s = some (t, .fault f)

end Sys2Proof.Machine
end

