-- ==== Sys2Proof/Certificates/Slice0/Obligations.lean ====
section
/-! DEFINITION. The statements for the provers. Each docstring names the rules of spec/ that it formalises and, where
a clause rests on a decision the spec marks as its own or on a choice of the model, that decision and its log entry. -/

namespace Sys2Proof.Spec

open Sys2Proof.Machine

/-- `v` is `Int(n)`. -/
def IsInt (v : Value) (n : Int) : Prop := ∃ w : Word, v = .int w ∧ w.toInt = n

/-- `v` is `Ptr(n)`. -/
def IsPtr (v : Value) (n : Nat) : Prop := ∃ w : Word, v = .ptr w ∧ w.toNat = n

/-- Every register but those listed reads as before. -/
def RegsSameExcept (rs : List RegIdx) (s t : State) : Prop := ∀ r, r ∉ rs → t.readReg r = s.readReg r

/-- Flag and remainder register are unchanged. -/
def FlagRemSame (s t : State) : Prop := t.flag = s.flag ∧ t.rem = s.rem

/-- Every byte of the program space reads as before. -/
def ProgramSame (s t : State) : Prop := ∀ a : Nat, t.mem.program[a]? = s.mem.program[a]?

/-- Every slot of the heap reads as before, existing or not, and every block has the length it had. -/
def HeapSame (s t : State) : Prop :=
  ∀ id : Nat, accessBlockLength t id = accessBlockLength s id ∧ ∀ k : Nat, accessSlot t id k = accessSlot s id k

/-- All that an instruction writing only the listed registers and the pc leaves alone. -/
def OnlyRegsAndPc (rs : List RegIdx) (s t : State) : Prop :=
  RegsSameExcept rs s t ∧ FlagRemSame s t ∧ ProgramSame s t ∧ HeapSame s t

/-- The effect of Add, Sub or Mul (R149): it completes, the destination is `Int(to_s64(exact))`, the pc is past four
bytes, and nothing else changes. -/
def ArithDone (i : Instr) (s : State) (rd : RegIdx) (exact : Int) : Prop :=
  ∃ t, exec i s = .next t ∧ IsInt (t.readReg rd) (toS64 exact) ∧ t.pc = s.pc + 4 ∧ OnlyRegsAndPc [rd] s t

/-- The effect of a conditional jump (R181): it completes, the pc is the register's `as_u` when taken and past two
bytes when not, and nothing else changes. -/
def CondJumpDone (i : Instr) (s : State) (rt : RegIdx) (taken : Prop) : Prop :=
  ∃ t, exec i s = .next t ∧ (taken → t.pc.toNat = (s.readReg rt).asU) ∧ (¬taken → t.pc = s.pc + 2) ∧
    OnlyRegsAndPc [] s t

/-- The effect of Write and WritePointer (R201, R202) for the value they store: they complete; the slot at
(`as_u` of the block-id register, `as_u` of the offset register) holds the value; the block is at least that long and
no shorter than before; slots that growth made hold `Int(0)`; every other slot of every block, and every other block's
length, is as before; the block-id register carries the same identifier tagged `Ptr`; the pc is past eleven bytes;
nothing else changes. -/
def StoreDone (i : Instr) (s : State) (rb ro : RegIdx) (stored : Value → Prop) : Prop :=
  let id := (s.readReg rb).asU
  let off := (s.readReg ro).asU
  let oldLen := (accessBlockLength s id).getD 0
  ∃ t, exec i s = .next t ∧
    (∃ v, accessSlot t id off = some v ∧ stored v) ∧
    accessBlockLength t id = some (max oldLen (off + 1)) ∧
    (∀ k, k ≠ off → k < oldLen → accessSlot t id k = accessSlot s id k) ∧
    (s.mem.wf → ∀ k, oldLen ≤ k → k < off → ∃ v, accessSlot t id k = some v ∧ IsInt v 0) ∧
    (∀ id', id' ≠ id → accessBlockLength t id' = accessBlockLength s id' ∧
      ∀ k, accessSlot t id' k = accessSlot s id' k) ∧
    IsPtr (t.readReg rb) id ∧ t.pc = s.pc + 11 ∧
    RegsSameExcept [rb] s t ∧ FlagRemSame s t ∧ ProgramSame s t

/-- The bytes at the pc are an instruction of the given operation, whole, and it is `i` (R121). -/
def Fetched (s : State) (i : Instr) : Prop := ∃ rest, decode (s.mem.program.drop s.pc.toNat) = .instr i rest

/-- The opcode byte at the pc, if there is one. -/
def opcodeAt (s : State) : Option Byte := s.mem.program[s.pc.toNat]?

/-- When a cycle from `s` ends in fault `f` (R220 to R225, in the order of R232). -/
def FaultCause (s : State) (f : Fault) : Prop :=
  (∃ b, opcodeAt s = some b ∧ s.pc.toNat + (decodeOp b).length > s.mem.program.length ∧
      f = .decodeError s.pc (decodeOp b)) ∨
  (∃ a b d, Fetched s (.div a b d) ∧ (s.readReg b).asS = 0 ∧ f = .divisionByZero s.pc) ∨
  (∃ rb ro rd id off, Fetched s (.dereference rb ro rd) ∧
      id.toNat = (s.readReg rb).asU ∧ off.toNat = (s.readReg ro).asU ∧
      (accessBlockLength s id.toNat = none ∨ ∃ n, accessBlockLength s id.toNat = some n ∧ n ≤ off.toNat) ∧
      f = .heapAccessOutOfRange s.pc id off) ∨
  (∃ rt, Fetched s (.jumpForward rt) ∧ s.pc.toNat + 2 + (s.readReg rt).asU ≥ 2 ^ 64 ∧ f = .jumpOutOfRange s.pc) ∨
  (∃ rt, Fetched s (.jumpBackward rt) ∧ (s.readReg rt).asU > s.pc.toNat + 2 ∧ f = .jumpOutOfRange s.pc)

/-- The table of R29 for an instruction that does not fault, as the exact number the pc takes. -/
def pcAfter (i : Instr) (s : State) : Nat :=
  let seq (n : Nat) := s.pc.toNat + n
  let target (rt : RegIdx) := (s.readReg rt).asU
  match i with
  | .halt => seq 1
  | .illegal _ => seq 1
  | .load _ _ => seq 10
  | .loadPointer _ _ => seq 10
  | .add _ _ _ => seq 4
  | .sub _ _ _ => seq 4
  | .mul _ _ _ => seq 4
  | .div _ _ _ => seq 4
  | .dereference _ _ _ => seq 4
  | .cmp _ _ => seq 3
  | .write _ _ _ => seq 11
  | .writePointer _ _ _ => seq 11
  | .jmp rt => target rt
  | .jumpForward rt => seq 2 + target rt
  | .jumpBackward rt => seq 2 - target rt
  | .jeq rt => if s.flag = .equal then target rt else seq 2
  | .jne rt => if s.flag = .greater ∨ s.flag = .less ∨ s.flag = .notEqual then target rt else seq 2
  | .jgt rt => if s.flag = .greater then target rt else seq 2
  | .jlt rt => if s.flag = .less then target rt else seq 2
  | .jumpGreaterOrEqual rt => if s.flag = .greater ∨ s.flag = .equal then target rt else seq 2
  | .jumpLessOrEqual rt => if s.flag = .less ∨ s.flag = .equal then target rt else seq 2

/-- The registers an instruction may write, by the table of R23. -/
def writtenRegs : Instr → List RegIdx
  | .load rd _ => [rd]
  | .loadPointer rd _ => [rd]
  | .add _ _ rd => [rd]
  | .sub _ _ rd => [rd]
  | .mul _ _ rd => [rd]
  | .div _ _ rd => [rd]
  | .write rb _ _ => [rb]
  | .writePointer rb _ _ => [rb]
  | .dereference rb _ rd => [rb, rd]
  | .halt | .illegal _ | .jmp _ | .jumpForward _ | .jumpBackward _ | .cmp _ _
  | .jeq _ | .jne _ | .jgt _ | .jlt _ | .jumpGreaterOrEqual _ | .jumpLessOrEqual _ => []

/-- The token a register or immediate field of a structured instruction was given reads back as (R95). -/
def immediateOf : List Token → Option Token
  | [] => none
  | .register _ :: ts => immediateOf ts
  | .positiveInteger m :: _ => some (.positiveInteger m)
  | .negativeInteger m :: _ => some (.negativeInteger m)

/-- The Register tokens' indices, in order. -/
def registersOf : List Token → List RegIdx
  | [] => []
  | .register i :: ts => i :: registersOf ts
  | .positiveInteger _ :: ts => registersOf ts
  | .negativeInteger _ :: ts => registersOf ts

/-- `flag` holds one of the three values a Cmp leaves. -/
def Compared (f : Flag) : Prop := f = .equal ∨ f = .greater ∨ f = .less

end Sys2Proof.Spec

open Sys2Proof Sys2Proof.Machine Sys2Proof.Spec

/-! ### Reset and invariants -/

/-- spec/10_state.md section 10 (the reset table): registers `Int(0)`, flag None, heap empty; pc 0, remainder 0 and
the empty program buffer are the spec's decisions D16 and D17 (log entry 21). -/
def Obligations.ResetLeavesTheTabulatedValues : Prop :=
  (∀ r, IsInt (State.reset.readReg r) 0) ∧ State.reset.flag = .none ∧ State.reset.pc = 0 ∧ State.reset.rem = 0 ∧
    State.reset.mem.program = [] ∧
    ∀ id, accessBlockLength State.reset id = none ∧ ∀ k, accessSlot State.reset id k = none

/-- The invariant (canonical memory within its bounds, flag not NotEqual) holds after reset. -/
def Obligations.ResetSatisfiesTheInvariant : Prop := State.reset.wf

/-- Every cycle keeps the invariant: memory stays canonical (every block present has a slot, no slot lies past its
block's length, identifiers are u64), the program stays within `PROG_MAX`, and the flag is never NotEqual. -/
def Obligations.StepKeepsTheInvariant : Prop :=
  ∀ s t : State, s.wf → step s = .next t → t.wf

/-- Whatever a host does, appends and cycles in any order, every state it reaches meets the invariant; so the flag is
one of None, Equal, Greater and Less. -/
def Obligations.ReachableStatesMeetTheInvariant : Prop :=
  ∀ s, Reachable s → s.wf ∧ (s.flag = .none ∨ Compared s.flag)

/-! ### Encoding -/

/-- decode of encode: no operand bit of any instruction is dropped, whatever bytes follow. -/
def Obligations.DecodeOfEncodeIsTheInstruction : Prop :=
  ∀ i : Instr, i.wf = true → ∀ rest, decode (encode i ++ rest) = .instr i rest

/-- encode of decode: every whole instruction the decoder reads, from any bytes, is well formed and its encoding is
exactly the bytes consumed. -/
def Obligations.DecodedBytesAreTheEncoding : Prop :=
  ∀ bs i rest, decode bs = .instr i rest → i.wf = true ∧ bs = encode i ++ rest

/-- Words written out from the formats of spec/30_encoding.md section 3 and the byte lists of
spec/95_test_vectors.md decode to the instructions they stand for. The opcode values other than 0, 1, 2, 10 and 16
are the spec's decision D1 (log entry 9). -/
def Obligations.WordsOfTheSpecDecode : Prop :=
  decode [0] = .instr .halt [] ∧
  decode [1, 0, 0, 0, 0, 0, 0, 0, 1, 244] = .instr (.load 0 500) [] ∧
  decode [2, 0, 1, 2] = .instr (.add 0 1 2) [] ∧
  decode [6, 9] = .instr (.jmp 9) [] ∧
  decode [9, 4, 5] = .instr (.cmp 4 5) [] ∧
  decode [10, 0] = .instr (.jeq 0) [] ∧
  decode [16, 1, 1, 0, 0, 0, 0, 0, 0, 0, 2] = .instr (.write 1 1 2) [] ∧
  decode [18, 9, 0, 0, 0, 0, 0, 0, 0, 13] = .instr (.loadPointer 9 13) [] ∧
  decode [255, 0] = .instr (.illegal 255) [0]

/-- spec/40_cycle_halt_illegal.md, the truncated-instruction check: decoding is cut short exactly when the bytes are
fewer than `L(op)`, and the operation named is that of the opcode byte (one test on the whole length: the spec's
decision D26, log entry 26). -/
def Obligations.TruncatedExactlyWhenShort : Prop :=
  ∀ bs op, decode bs = .truncated op ↔ ∃ b tail, bs = b :: tail ∧ op = decodeOp b ∧ bs.length < op.length

/-- Appended bytes never change an instruction that is already whole. -/
def Obligations.BytesAfterAnInstructionDoNotMatter : Prop :=
  ∀ bs i rest more, decode bs = .instr i rest → decode (bs ++ more) = .instr i (rest ++ more)

/-- R82: `be64` is the big-endian sum, `be64_bytes` its inverse on both sides; the source's example. -/
def Obligations.BigEndianAssemblyAndItsInverse : Prop :=
  (∀ b0 b1 b2 b3 b4 b5 b6 b7 : Byte,
    (be64 b0 b1 b2 b3 b4 b5 b6 b7).toNat =
      b0.toNat * 2 ^ 56 + b1.toNat * 2 ^ 48 + b2.toNat * 2 ^ 40 + b3.toNat * 2 ^ 32 +
        b4.toNat * 2 ^ 24 + b5.toNat * 2 ^ 16 + b6.toNat * 2 ^ 8 + b7.toNat ∧
    be64Bytes (be64 b0 b1 b2 b3 b4 b5 b6 b7) = [b0, b1, b2, b3, b4, b5, b6, b7]) ∧
  (∀ w : Word, ∃ b0 b1 b2 b3 b4 b5 b6 b7, be64Bytes w = [b0, b1, b2, b3, b4, b5, b6, b7] ∧
    be64 b0 b1 b2 b3 b4 b5 b6 b7 = w ∧ ∀ i, (be64Bytes w)[i]?.map BitVec.toNat =
      if i < 8 then some (w.toNat / 2 ^ (8 * (7 - i)) % 2 ^ 8) else none) ∧
  (be64 0 0 0 0 0 0 1 244).toNat = 1 * 256 + 244 ∧ 1 * 256 + 244 = 500

/-- spec/30_encoding.md section 2: a `UIMM` field is `be64` of its bytes as it stands (all patterns distinct); a `SIMM` field is sign and
magnitude; the corner cases; -2^63 is the one s64 no `SIMM` field produces. -/
def Obligations.ImmediateFieldsDecode : Prop :=
  (∀ i rd b0 b1 b2 b3 b4 b5 b6 b7 rest,
    decode ([18, rd, b0, b1, b2, b3, b4, b5, b6, b7] ++ rest) = .instr i rest ↔
      i = .loadPointer rd (be64 b0 b1 b2 b3 b4 b5 b6 b7)) ∧
  (∀ v w : Word, be64Bytes v = be64Bytes w → v = w) ∧
  (∀ w : Word, smDecode w =
    if w.toNat < 2 ^ 63 then (w.toNat : Int) else -((w.toNat - 2 ^ 63 : Nat) : Int)) ∧
  smDecode 0 = 0 ∧ smDecode 0x8000000000000000 = 0 ∧ smDecode 0x7FFFFFFFFFFFFFFF = 2 ^ 63 - 1 ∧
  smDecode 0xFFFFFFFFFFFFFFFF = -(2 ^ 63 - 1) ∧
  (∀ n : Int, (∃ w, smDecode w = n) ↔ -(2 ^ 63 - 1) ≤ n ∧ n ≤ 2 ^ 63 - 1)

/-- R84: what the encoder emits for an immediate token, and the three round-trip laws. -/
def Obligations.ImmediateTokensRoundTrip : Prop :=
  (∀ m : Word, Token.emit (.positiveInteger m) = be64Bytes m ∧
    ∃ f : Word, Token.emit (.negativeInteger m) = be64Bytes f ∧
      f.toNat = (if m.toNat < 2 ^ 63 then m.toNat + 2 ^ 63 else m.toNat)) ∧
  (∀ m : Word, m.toNat < 2 ^ 63 → ∀ w rest, readImm (Token.emit (.positiveInteger m) ++ rest) = some (w, rest) →
    smDecode w = (m.toNat : Int)) ∧
  (∀ m : Word, m.toNat < 2 ^ 63 → ∀ w rest, readImm (Token.emit (.negativeInteger m) ++ rest) = some (w, rest) →
    smDecode w = -(m.toNat : Int)) ∧
  (∀ p w : Word, ∀ rest, readImm (Token.emit (.positiveInteger p) ++ rest) = some (w, rest) → w = p) ∧
  (∀ tok : Token, ∀ rest, (∃ i, tok = .register i) ∨ ∃ w, readImm (tok.emit ++ rest) = some (w, rest))

/-- R96: from magnitude 2^63 on a `SIMM` field does not round-trip: both tokens are emitted as the magnitude itself and
decode to `-(m - 2^63)`; the checked encoder accepts them. -/
def Obligations.RoundTripFailsFromTwoToThe63 : Prop :=
  ∀ m : Word, 2 ^ 63 ≤ m.toNat →
    Token.emit (.negativeInteger m) = Token.emit (.positiveInteger m) ∧
    Token.emit (.positiveInteger m) = be64Bytes m ∧
    smDecode m = -((m.toNat : Int) - 2 ^ 63) ∧ smDecode m ≤ 0 ∧ smDecode m ≠ m.toNat ∧ smDecode m ≠ -(m.toNat : Int) ∧
    ∀ rd, encodeTokens .load [.register rd, .positiveInteger m] = .ok ([1, rd] ++ be64Bytes m) ∧
      encodeTokens .load [.register rd, .negativeInteger m] = .ok ([1, rd] ++ be64Bytes m) ∧
      ∀ ro, encodeTokens .write [.register rd, .register ro, .positiveInteger m] = .ok ([16, rd, ro] ++ be64Bytes m) ∧
        encodeTokens .write [.register rd, .register ro, .negativeInteger m] = .ok ([16, rd, ro] ++ be64Bytes m)

/-- spec/30_encoding.md section 4: opcode decode is total with Illegal from 20 on, opcode encode is its right inverse on the defined operations,
injective, and undefined on Illegal. -/
def Obligations.OpcodeDecodeAndEncodeAgree : Prop :=
  (∀ op, op ≠ .illegal → ∃ b, encodeOp op = some b ∧ b.toNat ≤ 19 ∧ decodeOp b = op) ∧
  (∀ b : Byte, 20 ≤ b.toNat → decodeOp b = .illegal) ∧
  (∀ b : Byte, b.toNat ≤ 19 → decodeOp b ≠ .illegal ∧ encodeOp (decodeOp b) = some b) ∧
  (∀ op op' b, encodeOp op = some b → encodeOp op' = some b → op = op') ∧
  encodeOp .illegal = none

/-- spec/30_encoding.md section 4: shapes, the length law, the table of lengths, and that the decoder consumes exactly `L(op)` bytes whatever
follows. -/
def Obligations.ShapesAndLengths : Prop :=
  (∀ op : Operation, op.length = 1 + (op.shape.map fun k => if k = .reg then 1 else 8).sum) ∧
  Operation.halt.shape = [] ∧ Operation.illegal.shape = [] ∧
  (∀ op, op ∈ [Operation.add, .sub, .mul, .div, .dereference] → op.shape = [.reg, .reg, .reg] ∧ op.length = 4) ∧
  (∀ op, op ∈ [Operation.jmp, .jumpForward, .jumpBackward, .jeq, .jne, .jgt, .jlt, .jumpGreaterOrEqual,
    .jumpLessOrEqual] → op.shape = [.reg] ∧ op.length = 2) ∧
  Operation.load.shape = [.reg, .simm] ∧ Operation.loadPointer.shape = [.reg, .uimm] ∧
  Operation.cmp.shape = [.reg, .reg] ∧ Operation.write.shape = [.reg, .reg, .simm] ∧
  Operation.writePointer.shape = [.reg, .reg, .uimm] ∧
  (∀ op, op ∈ [Operation.halt, .illegal] → op.length = 1) ∧ (∀ op, op ∈ [Operation.load, .loadPointer] → op.length = 10) ∧
  (∀ op, op ∈ [Operation.write, .writePointer] → op.length = 11) ∧ Operation.cmp.length = 3 ∧
  (∀ bs i rest, decode bs = .instr i rest → bs.length = i.operation.length + rest.length ∧
    ∃ b tail, bs = b :: tail ∧ i.operation = decodeOp b)

/-- spec/30_encoding.md section 6, the checked encoder: it accepts exactly the token lists of the operation's shape,
emits the opcode and the tokens, `L(op)` bytes, and else answers EncodeArityMismatch and no bytes. Refusing a
NegativeInteger in a pointer field, and Illegal, are the spec's decisions D18 and D19 (log entry 22). -/
def Obligations.EncoderChecksTheShape : Prop :=
  ∀ op toks,
    (∀ bytes, encodeTokens op toks = .ok bytes ↔
      ∃ b, encodeOp op = some b ∧ toks.length = op.shape.length ∧
        (∀ (k : Nat) (t : Token) (f : FieldKind), toks[k]? = some t → op.shape[k]? = some f → t.fits f = true) ∧
        bytes = b :: toks.flatMap Token.emit) ∧
    (∀ bytes, encodeTokens op toks = .ok bytes → bytes.length = op.length) ∧
    ((∃ bytes, encodeTokens op toks = .ok bytes) ∨
      encodeTokens op toks = .error (.encodeArityMismatch (some op)))

/-- spec/30_encoding.md section 6, the round-trip contract: what the checked encoder emits decodes, before any bytes,
to the same operation with the Register tokens' indices in order and the immediate of the token, for a `UIMM` field
the magnitude, for a `SIMM` field plus or minus a magnitude below 2^63. It rests on decision D18 for which tokens are
accepted (log entry 22). -/
def Obligations.EncoderAndDecoderAgree : Prop :=
  ∀ op toks bytes rest, encodeTokens op toks = .ok bytes →
    ∃ i, decode (bytes ++ rest) = .instr i rest ∧ i.operation = op ∧ i.registers = registersOf toks ∧
      (immediateOf toks = none ↔ i.immediate = none) ∧
      ∀ w, i.immediate = some w →
        (FieldKind.uimm ∈ op.shape → immediateOf toks = some (.positiveInteger w)) ∧
        (FieldKind.simm ∈ op.shape → ∀ m : Word, m.toNat < 2 ^ 63 →
          (immediateOf toks = some (.positiveInteger m) → smDecode w = (m.toNat : Int)) ∧
          (immediateOf toks = some (.negativeInteger m) → smDecode w = -(m.toNat : Int)))

/-! ### Numbers -/

/-- spec/00_scope.md section 5: `to_u64` is the residue, `to_s64` the one s64 congruent to its argument modulo
2^64. -/
def Obligations.ConversionsAreTheResidues : Prop :=
  ∀ n : Int, (toU64 n : Int) = n % 2 ^ 64 ∧
    ∀ v : Int, v = toS64 n ↔ -2 ^ 63 ≤ v ∧ v ≤ 2 ^ 63 - 1 ∧ (2 ^ 64 : Int) ∣ v - n

/-- spec/10_state.md section 2: the coercions, and that they give one 64-bit pattern. Reinterpretation outside the
other type's range is the spec's decision D5 (log entry 12). -/
def Obligations.CoercionsGiveOnePattern : Prop :=
  ∀ t : Value, t.asS = toS64 t.asU ∧ t.asU = toU64 t.asS ∧
    (∀ w, t = .int w → t.asS = w.toInt ∧ (0 ≤ t.asS → (t.asU : Int) = t.asS)) ∧
    (∀ w, t = .ptr w → t.asU = w.toNat ∧ (w.toNat < 2 ^ 63 → t.asS = t.asU) ∧
      (2 ^ 63 ≤ w.toNat → t.asS = (t.asU : Int) - 2 ^ 64))

/-! ### The cycle -/

/-- A step runs the decoded instruction: when the bytes at the pc decode to an instruction, it is well formed and the
step is `exec` of it, with nothing added around it. -/
def Obligations.StepRunsTheDecodedInstruction : Prop :=
  ∀ s i rest, decode (s.mem.program.drop s.pc.toNat) = .instr i rest → i.wf = true ∧ step s = exec i s

/-- spec/40_cycle_halt_illegal.md section 2, the five steps of a cycle with its report. That a fault changes nothing,
and the form of the length test, are the spec's decisions D14 and D26 (log entries 20 and 26). -/
def Obligations.CycleFollowsItsSteps : Prop :=
  ∀ s : State,
    (s.mem.program.length ≤ s.pc.toNat → cycle s = (s, .halt .endOfProgram)) ∧
    ∀ b, opcodeAt s = some b →
      (s.pc.toNat + (decodeOp b).length > s.mem.program.length →
        cycle s = (s, .fault (.decodeError s.pc (decodeOp b)))) ∧
      (s.pc.toNat + (decodeOp b).length ≤ s.mem.program.length →
        ∃ i, i.operation = decodeOp b ∧
          encode i = (s.mem.program.drop s.pc.toNat).take (decodeOp b).length ∧
          ((∃ t, exec i s = .next t ∧ (cycle s).1 = t ∧
              (cycle s).2 = if b = 0 then .halt .haltInstruction
                else if 20 ≤ b.toNat then .halt (.unknownOpcode s.pc b) else .continues) ∨
            ∃ f, exec i s = .fault f ∧ cycle s = (s, .fault f)))

/-- spec/60_exceptions.md: the closed set of faults. A step faults exactly in the listed cases, with the information
listed, and in every other state it completes; it never refuses. Rests on the spec's decisions D3, D4, D12, D13, D24
and D26 (log entries 10, 11, 17, 18 and 26). -/
def Obligations.StepFaultsExactlyAsListed : Prop :=
  ∀ s : State, (∀ f, step s = .fault f ↔ FaultCause s f) ∧ ((¬∃ f, FaultCause s f) → ∃ t, step s = .next t)

/-- spec/60_exceptions.md sections 1 and 2: a fault changes nothing, and with nothing appended the next cycle repeats
it (the spec's decisions D14 and D29, log entry 20). -/
def Obligations.FaultsChangeNothingAndRecur : Prop :=
  ∀ s f, (cycle s).2 = .fault f → (cycle s).1 = s ∧ cycle (cycle s).1 = (s, .fault f)

/-- spec/60_exceptions.md section 2: an append cures no fault but DecodeError (the spec's decision D29, log
entry 20). -/
def Obligations.AppendCuresOnlyDecodeError : Prop :=
  ∀ s t f bytes, (cycle s).2 = .fault f → (∀ pc0 op, f ≠ .decodeError pc0 op) → append bytes s = some t →
    cycle t = (t, .fault f)

/-- spec/60_exceptions.md section 2 and spec/70_reset_and_hazards.md: after an append that completes a cut-short
instruction, the next cycle runs it (the spec's decision D14, log entry 20). -/
def Obligations.AppendCompletesATruncatedInstruction : Prop :=
  ∀ s t pc0 op bytes, (cycle s).2 = .fault (.decodeError pc0 op) → append bytes s = some t →
    s.pc.toNat + op.length ≤ t.mem.program.length → ∃ i, i.operation = op ∧ Fetched t i ∧ step t = exec i t

/-- spec/40_cycle_halt_illegal.md: the three halt reasons are told apart, and a cycle that reports neither halt nor
fault ran a whole instruction other than Halt and Illegal. The names are the spec's decision D21 (log entry 24). -/
def Obligations.HaltReasonsAreToldApart : Prop :=
  ∀ s : State,
    ((cycle s).2 = .halt .endOfProgram ↔ s.mem.program.length ≤ s.pc.toNat) ∧
    ((cycle s).2 = .halt .haltInstruction ↔ opcodeAt s = some 0) ∧
    (∀ pc0 b, (cycle s).2 = .halt (.unknownOpcode pc0 b) ↔ pc0 = s.pc ∧ opcodeAt s = some b ∧ 20 ≤ b.toNat) ∧
    ((cycle s).2 = .continues → ∃ b, opcodeAt s = some b ∧ 1 ≤ b.toNat ∧ b.toNat ≤ 19)

/-- spec/10_state.md section 3: the pc after a cycle, every case of the table. Rests on the spec's decisions D3, D4,
D11 and D14 (log entries 10, 11, 16 and 20). -/
def Obligations.PcAfterEveryCycle : Prop :=
  ∀ s : State, s.mem.wf →
    (s.mem.program.length ≤ s.pc.toNat → (cycle s).1.pc = s.pc) ∧
    (∀ f, (cycle s).2 = .fault f → (cycle s).1.pc = s.pc) ∧
    ∀ i t, Fetched s i → step s = .next t → t.pc.toNat = pcAfter i s

/-- spec/10_state.md section 3: the pc past a fetched instruction is at most the program's length, so the sequential
advance never wraps (it rests on `PROG_MAX`, the spec's decision D27, log entry 8). -/
def Obligations.SequentialAdvanceNeverWraps : Prop :=
  ∀ s i, s.mem.program.length ≤ Config.progMax → Fetched s i →
    (s.pc + BitVec.ofNat 64 i.operation.length).toNat = s.pc.toNat + i.operation.length ∧
    s.pc.toNat + i.operation.length ≤ s.mem.program.length

/-! ### Whole-machine rules -/

/-- spec/20_memory.md: no cycle writes the program space; an append only adds at its end, and changes nothing else.
That an append past `PROG_MAX` is not given is the model's choice (log entry 8). -/
def Obligations.ProgramGrowsOnlyByAppend : Prop :=
  (∀ s : State, (cycle s).1.mem.program = s.mem.program) ∧
  (∀ s t bytes, append bytes s = some t → t.mem.program = s.mem.program ++ bytes ∧
    (∀ a, a < s.mem.program.length → t.mem.program[a]? = s.mem.program[a]?) ∧
    t.regs = s.regs ∧ t.pc = s.pc ∧ t.flag = s.flag ∧ t.rem = s.rem ∧ t.mem.heap = s.mem.heap) ∧
  (∀ s bytes, (∃ t, append bytes s = some t) ↔ s.mem.program.length + bytes.length ≤ 2 ^ 64 - 1)

/-- spec/10_state.md section 7: any u64 names a block; blocks are made by the first write to their identifier; the set of present identifiers
only grows and no block shrinks, whatever instruction runs. -/
def Obligations.HeapOnlyGrows : Prop :=
  (∀ s t id n, (cycle s).1 = t → accessBlockLength s id = some n → ∃ n', accessBlockLength t id = some n' ∧ n ≤ n') ∧
  (∀ s t i id, exec i s = .next t → accessBlockLength s id = none → (∃ n, accessBlockLength t id = some n) →
    ∃ rb ro imm, (i = .write rb ro imm ∨ i = .writePointer rb ro imm) ∧ id = (s.readReg rb).asU) ∧
  (∀ p : Word, ∀ s rb ro imm i t, s.readReg rb = .ptr p → i = .write rb ro imm ∨ i = .writePointer rb ro imm →
    exec i s = .next t → ∃ n, accessBlockLength t p.toNat = some n) ∧
  (∀ id, accessBlockLength State.reset id = none)

/-- spec/10_state.md section 4: Cmp is the only instruction that writes the flag, it leaves Equal, Greater or Less, and
every conditional jump has a meaning at every flag value. -/
def Obligations.OnlyCmpWritesTheFlag : Prop :=
  (∀ s i t, exec i s = .next t → (∀ ra rb, i ≠ .cmp ra rb) → t.flag = s.flag) ∧
  (∀ s ra rb, ∃ t, exec (.cmp ra rb) s = .next t ∧ Compared t.flag) ∧
  (∀ s rt i, i ∈ [Instr.jeq rt, .jne rt, .jgt rt, .jlt rt, .jumpGreaterOrEqual rt, .jumpLessOrEqual rt] →
    ∃ t, exec i s = .next t)

/-- spec/10_state.md section 5: Div is the only writer of the remainder register. -/
def Obligations.OnlyDivWritesTheRemainder : Prop :=
  ∀ s i t, exec i s = .next t → (∀ a b d, i ≠ .div a b d) → t.rem = s.rem

/-- spec/10_state.md section 5: no instruction reads the remainder register: two states that differ in it alone fault
alike, and otherwise reach states that differ in it alone. -/
def Obligations.NothingReadsTheRemainder : Prop :=
  ∀ s w, (∀ f, step s = .fault f ↔ step (s.setRem w) = .fault f) ∧
    ∀ t, step s = .next t → ∃ t', step (s.setRem w) = .next t' ∧ t'.setRem 0 = t.setRem 0

/-- spec/10_state.md section 2, the table of registers written: no other register changes, and the value written has
the tag the table gives (for Dereference's destination, the slot's value, tag preserved). The offset register's
coercion is the spec's decision D12 and the order of Dereference's two writes D25 (log entries 17 and 19). -/
def Obligations.RegistersAreWrittenAsTabulated : Prop :=
  ∀ s i t, exec i s = .next t → RegsSameExcept (writtenRegs i) s t ∧
    (∀ rd imm, i = .load rd imm → ∃ n, IsInt (t.readReg rd) n) ∧
    (∀ rd imm, i = .loadPointer rd imm → ∃ n, IsPtr (t.readReg rd) n) ∧
    (∀ a b rd, i = .add a b rd ∨ i = .sub a b rd ∨ i = .mul a b rd ∨ i = .div a b rd → ∃ n, IsInt (t.readReg rd) n) ∧
    (∀ rb ro imm, i = .write rb ro imm ∨ i = .writePointer rb ro imm → IsPtr (t.readReg rb) (s.readReg rb).asU) ∧
    (∀ rb ro rd, i = .dereference rb ro rd →
      some (t.readReg rd) = accessSlot s (s.readReg rb).asU (s.readReg ro).asU ∧
      (rb ≠ rd → IsPtr (t.readReg rb) (s.readReg rb).asU))

/-! ### Halt, Illegal and the loads -/

/-- spec/40_cycle_halt_illegal.md section 3: Halt is the byte 0 alone; the cycle reports the halt of a Halt instruction, the pc moves by one, nothing else
changes, and it does not fault. -/
def Obligations.HaltAdvancesAndSignals : Prop :=
  (∀ rest, decode (0 :: rest) = .instr .halt rest) ∧ Operation.halt.length = 1 ∧
  ∀ s : State, ∃ t, exec .halt s = .next t ∧ t.pc = s.pc + 1 ∧ OnlyRegsAndPc [] s t ∧
    (opcodeAt s = some 0 → cycle s = (t, .halt .haltInstruction))

/-- spec/40_cycle_halt_illegal.md section 4: every byte from 20 on is consumed alone, ends the cycle with the halt
reason UnknownOpcode and no fault, moves the pc by one (a derivation the spec marks as its own) and changes nothing
else. -/
def Obligations.IllegalIsANormalHalt : Prop :=
  ∀ b : Byte, 20 ≤ b.toNat → (∀ rest, decode (b :: rest) = .instr (.illegal b) rest) ∧
    ∀ s : State, ∃ t, exec (.illegal b) s = .next t ∧ t.pc = s.pc + 1 ∧ OnlyRegsAndPc [] s t ∧
      (opcodeAt s = some b → cycle s = (t, .halt (.unknownOpcode s.pc b)))

/-- R140: Load's bytes, its value (sign and magnitude, tag `Int` whatever was there), its frame, its only fault, and
its corner cases. -/
def Obligations.LoadWritesSignAndMagnitude : Prop :=
  (∀ d i0 i1 i2 i3 i4 i5 i6 i7 rest, decode ([1, d, i0, i1, i2, i3, i4, i5, i6, i7] ++ rest) =
    .instr (.load d (be64 i0 i1 i2 i3 i4 i5 i6 i7)) rest) ∧
  (∀ s rd w, ∃ t, exec (.load rd w) s = .next t ∧ IsInt (t.readReg rd) (smDecode w) ∧ t.pc = s.pc + 10 ∧
    OnlyRegsAndPc [rd] s t ∧ (Fetched s (.load rd w) → cycle s = (t, .continues))) ∧
  (∀ s : State, opcodeAt s = some 1 → s.mem.program.length < s.pc.toNat + 10 →
    (cycle s).2 = .fault (.decodeError s.pc .load)) ∧
  (∀ s rd t, exec (.load rd 0x8000000000000000) s = .next t → IsInt (t.readReg rd) 0) ∧
  (∀ s rd t, exec (.load rd 0xFFFFFFFFFFFFFFFF) s = .next t → IsInt (t.readReg rd) (-(2 ^ 63 - 1))) ∧
  (∀ s rd w t, exec (.load rd w) s = .next t → ¬IsInt (t.readReg rd) (-2 ^ 63)) ∧
  (∀ s rd t, ∀ m : Word, 2 ^ 63 ≤ m.toNat → exec (.load rd m) s = .next t →
    IsInt (t.readReg rd) (-((m.toNat : Int) - 2 ^ 63))) ∧
  ∀ t, exec (.load 0 (be64 0 0 0 0 0 0 1 244)) State.reset = .next t → IsInt (t.readReg 0) 500

/-- spec/41_load_immediate.md: LoadPointer writes the immediate as it stands, tagged `Ptr`, and makes no block; it
differs from the reset value in the tag even at 0. -/
def Obligations.LoadPointerWritesThePointer : Prop :=
  ∀ s rd w, ∃ t, exec (.loadPointer rd w) s = .next t ∧ IsPtr (t.readReg rd) w.toNat ∧
    t.readReg rd ≠ Value.zero ∧ t.pc = s.pc + 10 ∧ OnlyRegsAndPc [rd] s t

/-! ### Arithmetic -/

/-- spec/42_arithmetic.md: Add, Sub (first source minus second) and Mul complete, write `Int` of the exact result
wrapped modulo 2^64, and change nothing else. Wrapping is the spec's decision D6 and the operand order D9 (log entries
13 and 15). -/
def Obligations.AddSubMulWriteTheWrappedResult : Prop :=
  ∀ s a b d,
    ArithDone (.add a b d) s d ((s.readReg a).asS + (s.readReg b).asS) ∧
    ArithDone (.sub a b d) s d ((s.readReg a).asS - (s.readReg b).asS) ∧
    ArithDone (.mul a b d) s d ((s.readReg a).asS * (s.readReg b).asS)

/-- spec/42_arithmetic.md: Div with a divisor other than 0 completes; quotient and remainder are the pair of the law in
section 4 (dividend = quotient times divisor plus remainder, the remainder smaller than the divisor and zero or of the
dividend's sign); quotient wrapped into the destination, remainder modulo 2^64 in `rem`. Rounding, remainder, wrapping
and operand order are the spec's decisions D7, D8, D6 and D9 (log entries 13 to 15). -/
def Obligations.DivWritesQuotientAndRemainder : Prop :=
  ∀ s a b d, (s.readReg b).asS ≠ 0 → ∃ t q r, exec (.div a b d) s = .next t ∧
    (s.readReg a).asS = q * (s.readReg b).asS + r ∧ |r| < |(s.readReg b).asS| ∧
    (r = 0 ∨ r.sign = (s.readReg a).asS.sign) ∧
    IsInt (t.readReg d) (toS64 q) ∧ t.rem.toNat = toU64 r ∧ t.pc = s.pc + 4 ∧
    RegsSameExcept [d] s t ∧ t.flag = s.flag ∧ ProgramSame s t ∧ HeapSame s t

/-- spec/42_arithmetic.md: Div faults exactly when the divisor reads as 0, whatever its tag and whatever the dividend;
`Int(0)` and `Ptr(0)` both do. -/
def Obligations.DivFaultsExactlyOnZero : Prop :=
  (∀ s a b d f, exec (.div a b d) s = .fault f ↔ (s.readReg b).asS = 0 ∧ f = .divisionByZero s.pc) ∧
  (∀ s a b d, s.readReg b = .int 0 ∨ s.readReg b = .ptr 0 → exec (.div a b d) s = .fault (.divisionByZero s.pc))

/-! ### Jumps -/

/-- spec/43_jumps.md: Jmp sets the pc to the register's `as_u`, any u64 accepted, and changes nothing else. -/
def Obligations.JmpGoesToTheRegister : Prop :=
  ∀ s rt, ∃ t, exec (.jmp rt) s = .next t ∧ t.pc.toNat = (s.readReg rt).asU ∧ OnlyRegsAndPc [] s t

/-- spec/43_jumps.md: JumpForward goes to pc0 + 2 + distance when that is a u64, and else faults and changes nothing.
Base and fault are the spec's decisions D3 and D4 (log entries 10 and 11). -/
def Obligations.JumpForwardAddsOrFaults : Prop :=
  ∀ s rt,
    (s.pc.toNat + 2 + (s.readReg rt).asU < 2 ^ 64 → ∃ t, exec (.jumpForward rt) s = .next t ∧
      t.pc.toNat = s.pc.toNat + 2 + (s.readReg rt).asU ∧ OnlyRegsAndPc [] s t) ∧
    (2 ^ 64 ≤ s.pc.toNat + 2 + (s.readReg rt).asU → exec (.jumpForward rt) s = .fault (.jumpOutOfRange s.pc))

/-- spec/43_jumps.md: JumpBackward goes to pc0 + 2 - distance when that is not negative, and else faults and changes
nothing (the number is taken modulo 2^64, which matters only for a pc no fetch leaves). Base and fault are the spec's
decisions D3 and D4 (log entries 7, 10 and 11). -/
def Obligations.JumpBackwardSubtractsOrFaults : Prop :=
  ∀ s rt,
    ((s.readReg rt).asU ≤ s.pc.toNat + 2 → ∃ t, exec (.jumpBackward rt) s = .next t ∧
      t.pc.toNat = (s.pc.toNat + 2 - (s.readReg rt).asU) % 2 ^ 64 ∧ OnlyRegsAndPc [] s t) ∧
    (s.pc.toNat + 2 < (s.readReg rt).asU → exec (.jumpBackward rt) s = .fault (.jumpOutOfRange s.pc))

/-- spec/44_compare_and_conditional_jumps.md: Cmp leaves the signed comparison of the first register with the second,
tags ignored, and changes nothing else but the pc. The orientation is the spec's decision D10 (log entry 15). -/
def Obligations.CmpLeavesTheSignedOrder : Prop :=
  ∀ s a b, ∃ t, exec (.cmp a b) s = .next t ∧
    (t.flag = .equal ↔ (s.readReg a).asS = (s.readReg b).asS) ∧
    (t.flag = .greater ↔ (s.readReg a).asS > (s.readReg b).asS) ∧
    (t.flag = .less ↔ (s.readReg a).asS < (s.readReg b).asS) ∧
    t.pc = s.pc + 3 ∧ RegsSameExcept [] s t ∧ t.rem = s.rem ∧ ProgramSame s t ∧ HeapSame s t

/-- spec/44_compare_and_conditional_jumps.md section 2: Jeq is the byte 10 and a register; it is taken on Equal and on no other flag value, changes only the pc, and
its only fault is DecodeError, whether or not it would be taken. -/
def Obligations.JeqIsTakenOnEqual : Prop :=
  (∀ t rest, decode (10 :: t :: rest) = .instr (.jeq t) rest) ∧
  (∀ s rt, CondJumpDone (.jeq rt) s rt (s.flag = .equal)) ∧
  (∀ s : State, opcodeAt s = some 10 → s.mem.program.length < s.pc.toNat + 2 →
    cycle s = (s, .fault (.decodeError s.pc .jeq))) ∧
  (∀ s t, s.flag = .equal → s.readReg 0 = .int 7 → exec (.jeq 0) s = .next t → t.pc = 7)

/-- spec/44_compare_and_conditional_jumps.md: Jgt, Jlt, JumpGreaterOrEqual and JumpLessOrEqual at every flag value,
with their frames. -/
def Obligations.OrderedJumpsAreTakenAsNamed : Prop :=
  ∀ s rt,
    CondJumpDone (.jgt rt) s rt (s.flag = .greater) ∧
    CondJumpDone (.jlt rt) s rt (s.flag = .less) ∧
    CondJumpDone (.jumpGreaterOrEqual rt) s rt (s.flag = .greater ∨ s.flag = .equal) ∧
    CondJumpDone (.jumpLessOrEqual rt) s rt (s.flag = .less ∨ s.flag = .equal)

/-- spec/44_compare_and_conditional_jumps.md: Jne is taken on Greater, Less and NotEqual: the spec's decision D11
(parameter `JNE_MATCH`, log entry 16). -/
def Obligations.JneIsTakenAfterAnUnequalComparison : Prop :=
  ∀ s rt, CondJumpDone (.jne rt) s rt (s.flag = .greater ∨ s.flag = .less ∨ s.flag = .notEqual)

/-- spec/44_compare_and_conditional_jumps.md section 3: after a Cmp the six jumps are the signed relations of the two
values compared. Rests on decisions D10 and D11 (log entries 15 and 16). -/
def Obligations.JumpsAfterCmpAreTheSignedRelations : Prop :=
  ∀ s a b t rt, exec (.cmp a b) s = .next t →
    CondJumpDone (.jeq rt) t rt ((s.readReg a).asS = (s.readReg b).asS) ∧
    CondJumpDone (.jne rt) t rt ((s.readReg a).asS ≠ (s.readReg b).asS) ∧
    CondJumpDone (.jgt rt) t rt ((s.readReg a).asS > (s.readReg b).asS) ∧
    CondJumpDone (.jlt rt) t rt ((s.readReg a).asS < (s.readReg b).asS) ∧
    CondJumpDone (.jumpGreaterOrEqual rt) t rt ((s.readReg a).asS ≥ (s.readReg b).asS) ∧
    CondJumpDone (.jumpLessOrEqual rt) t rt ((s.readReg a).asS ≤ (s.readReg b).asS)

/-! ### The heap -/

/-- spec/45_heap_access.md: Write and WritePointer complete in every state and store `Int` of the signed immediate and
`Ptr` of the unsigned one. The offset register's coercion is the spec's decision D12 (log entry 17). -/
def Obligations.WritesStoreAndRetag : Prop :=
  ∀ s rb ro w,
    StoreDone (.write rb ro w) s rb ro (fun v => IsInt v (smDecode w)) ∧
    StoreDone (.writePointer rb ro w) s rb ro (fun v => IsPtr v w.toNat)

/-- spec/45_heap_access.md: Dereference of a slot that exists completes: the destination holds the slot's value with
its tag, the block-id register is tagged `Ptr` unless it is the destination, nothing else changes. The offset
register's coercion and the order of the two writes are the spec's decisions D12 and D25 (log entries 17 and 19). -/
def Obligations.DereferenceCopiesTheSlot : Prop :=
  ∀ s rb ro rd n, accessBlockLength s (s.readReg rb).asU = some n → (s.readReg ro).asU < n →
    ∃ t, exec (.dereference rb ro rd) s = .next t ∧
      some (t.readReg rd) = accessSlot s (s.readReg rb).asU (s.readReg ro).asU ∧
      (rb ≠ rd → IsPtr (t.readReg rb) (s.readReg rb).asU) ∧ t.pc = s.pc + 4 ∧ OnlyRegsAndPc [rb, rd] s t

/-- spec/45_heap_access.md: Dereference of an absent block, or at or past a block's length, faults with identifier and
index. The absent block is the spec's decision D13, the index's coercion D12 (log entries 17 and 18). -/
def Obligations.DereferenceFaultsWithoutASlot : Prop :=
  ∀ s rb ro rd, (accessBlockLength s (s.readReg rb).asU = none ∨
      ∃ n, accessBlockLength s (s.readReg rb).asU = some n ∧ n ≤ (s.readReg ro).asU) →
    ∃ id off : Word, exec (.dereference rb ro rd) s = .fault (.heapAccessOutOfRange s.pc id off) ∧
      id.toNat = (s.readReg rb).asU ∧ off.toNat = (s.readReg ro).asU

/-- spec/45_heap_access.md section 3: a Dereference right after a Write or WritePointer with the same registers gives
back the value written, tag included. -/
def Obligations.WriteThenDereferenceReturnsTheValue : Prop :=
  ∀ s rb ro rd w,
    (∀ t, exec (.write rb ro w) s = .next t → ∃ u, exec (.dereference rb ro rd) t = .next u ∧
      IsInt (u.readReg rd) (smDecode w)) ∧
    (∀ t, exec (.writePointer rb ro w) s = .next t → ∃ u, exec (.dereference rb ro rd) t = .next u ∧
      IsPtr (u.readReg rd) w.toNat)

/-- spec/45_heap_access.md section 3: a write at offset k to an identifier with no block makes a block of k + 1 slots,
those below k holding `Int(0)`, for both kinds of write. -/
def Obligations.FirstWriteMakesAZeroFilledBlock : Prop :=
  ∀ s rb ro w i t, i = .write rb ro w ∨ i = .writePointer rb ro w →
    accessBlockLength s (s.readReg rb).asU = none → exec i s = .next t →
    accessBlockLength t (s.readReg rb).asU = some ((s.readReg ro).asU + 1) ∧
    ∀ k, k < (s.readReg ro).asU → ∃ v, accessSlot t (s.readReg rb).asU k = some v ∧ IsInt v 0

/-- spec/20_memory.md section 2: the read-after-write law of the heap. -/
def Obligations.HeapReadsAfterAWrite : Prop :=
  ∀ (m : Memory) (id k : Nat) (v : Value), (m.heapWrite id k v).heapRead id k = some v ∧
    ∀ id' k', ¬(id' = id ∧ k' = k) →
      (∀ x, m.heapRead id' k' = some x → (m.heapWrite id k v).heapRead id' k' = some x) ∧
      (m.wf → m.heapRead id' k' = none →
        (m.heapWrite id k v).heapRead id' k' = if id' = id ∧ k' < k then some Value.zero else none)

/-- spec/20_memory.md section 1: blocks are disjoint: writes to two blocks commute, to the very same memory. -/
def Obligations.WritesToDifferentBlocksCommute : Prop :=
  ∀ (m : Memory) (id id' k k' : Nat) (v v' : Value), m.wf → id < 2 ^ 64 → id' < 2 ^ 64 → k < 2 ^ 64 → k' < 2 ^ 64 →
    id ≠ id' → (m.heapWrite id k v).heapWrite id' k' v' = (m.heapWrite id' k' v').heapWrite id k v

/-- The canonical form (log entry 5): two canonical memories that read alike, byte by byte, slot by slot and length by
length, are one memory. -/
def Obligations.CanonicalMemoriesThatReadAlikeAreEqual : Prop :=
  ∀ m m' : Memory, m.wf → m'.wf → (∀ a : Nat, m.program[a]? = m'.program[a]?) →
    (∀ id, (m.block? id).map Block.len = (m'.block? id).map Block.len ∧
      ∀ k, m.heapRead id k = m'.heapRead id k) → m = m'

/-! ### Host operations -/

/-- spec/40_cycle_halt_illegal.md section 5: a run ends at the first cycle whose report is not `continue`, gives that
report and the state after that cycle, and more fuel changes nothing. Running under fuel is the model's form of a run
that need not end (log entry 27). -/
def Obligations.RunStopsAtTheFirstStop : Prop :=
  (∀ fuel s t r, runToCompletion fuel s = some (t, r) →
    r ≠ .continues ∧ (∃ u, cycle u = (t, r) ∧ ∃ n, n < fuel ∧ u = (fun v => (cycle v).1)^[n] s ∧
      ∀ m, m < n → (cycle ((fun v => (cycle v).1)^[m] s)).2 = .continues) ∧
    ∀ more, runToCompletion (fuel + more) s = some (t, r)) ∧
  ∀ s t r, cycle s = (t, r) → r ≠ .continues → ∀ fuel, runToCompletion (fuel + 1) s = some (t, r)

/-- spec/40_cycle_halt_illegal.md: the halt signal is not latched (the spec's decision D15, log entry 20): after a Halt
that was the program's last byte, an appended instruction is what the next cycle runs. -/
def Obligations.HaltIsNotLatched : Prop :=
  ∀ s t u bytes i rest, s.mem.wf → cycle s = (t, .halt .haltInstruction) →
    s.pc.toNat + 1 = s.mem.program.length → append bytes t = some u → decode bytes = .instr i rest →
    step u = exec i u ∧ u.pc = s.pc + 1
end

