-- ==== Sys2Proof/Laws/Encoding.lean ====
section
/-! SUPPORT. The opcode map, byte order, and what the format readers and the decoder give. -/

namespace Sys2Proof

theorem decodeOp_illegal (b : Byte) (h : 20 ≤ b.toNat) : decodeOp b = .illegal := by
  revert b; decide +kernel

theorem encodeOp_decodeOp (b : Byte) (h : decodeOp b ≠ .illegal) : encodeOp (decodeOp b) = some b := by
  revert b; decide +kernel

theorem decodeOp_eq_illegal_iff (b : Byte) : decodeOp b = .illegal ↔ 20 ≤ b.toNat := by
  revert b; decide +kernel

theorem decodeOp_of_encodeOp {op : Operation} {b : Byte} (h : encodeOp op = some b) : decodeOp b = op := by
  revert b h; cases op <;> decide +kernel

/-! ### Byte order -/

theorem wordByte_toNat (w : Word) (k : Nat) : (wordByte w k).toNat = w.toNat / 2 ^ (8 * k) % 256 := by
  simp [wordByte, Nat.shiftRight_eq_div_pow]

theorem be64_wordByte (w : Word) :
    be64 (wordByte w 7) (wordByte w 6) (wordByte w 5) (wordByte w 4)
      (wordByte w 3) (wordByte w 2) (wordByte w 1) (wordByte w 0) = w := by
  apply BitVec.eq_of_toNat_eq
  have := w.isLt
  simp only [be64, BitVec.toNat_ofNat, wordByte_toNat]
  omega

theorem be64_toNat (b0 b1 b2 b3 b4 b5 b6 b7 : Byte) :
    (be64 b0 b1 b2 b3 b4 b5 b6 b7).toNat =
      b0.toNat * 2 ^ 56 + b1.toNat * 2 ^ 48 + b2.toNat * 2 ^ 40 + b3.toNat * 2 ^ 32 +
        b4.toNat * 2 ^ 24 + b5.toNat * 2 ^ 16 + b6.toNat * 2 ^ 8 + b7.toNat := by
  have := b0.isLt; have := b1.isLt; have := b2.isLt; have := b3.isLt
  have := b4.isLt; have := b5.isLt; have := b6.isLt; have := b7.isLt
  simp only [be64, BitVec.toNat_ofNat]
  omega

@[simp] theorem be64Bytes_length (w : Word) : (be64Bytes w).length = 8 := rfl

/-! ### The format readers -/

@[simp] theorem readImm_be64Bytes (w : Word) (rest : List Byte) : readImm (be64Bytes w ++ rest) = some (w, rest) := by
  simp [be64Bytes, readImm, be64_wordByte]

theorem readImm_eq_none_iff (bs : List Byte) : readImm bs = none ↔ bs.length < 8 := by
  match bs with
  | [] => simp [readImm]
  | [_] => simp [readImm]
  | [_, _] => simp [readImm]
  | [_, _, _] => simp [readImm]
  | [_, _, _, _] => simp [readImm]
  | [_, _, _, _, _] => simp [readImm]
  | [_, _, _, _, _, _] => simp [readImm]
  | [_, _, _, _, _, _, _] => simp [readImm]
  | _ :: _ :: _ :: _ :: _ :: _ :: _ :: _ :: _ => simp [readImm]

/-- What `readImm` reads is eight bytes, and they are the big-endian bytes of the word it gives. -/
theorem readImm_eq_some {bs rest : List Byte} {w : Word} (h : readImm bs = some (w, rest)) :
    bs = be64Bytes w ++ rest := by
  match bs, h with
  | b0 :: b1 :: b2 :: b3 :: b4 :: b5 :: b6 :: b7 :: r, h =>
    simp only [readImm, Option.some.injEq, Prod.mk.injEq] at h
    obtain ⟨rfl, rfl⟩ := h
    have := b0.isLt; have := b1.isLt; have := b2.isLt; have := b3.isLt
    have := b4.isLt; have := b5.isLt; have := b6.isLt; have := b7.isLt
    simp only [be64Bytes, List.cons_append, List.nil_append, List.cons.injEq]
    refine ⟨?_, ?_, ?_, ?_, ?_, ?_, ?_, ?_, trivial⟩ <;>
      (apply BitVec.eq_of_toNat_eq; rw [wordByte_toNat, be64_toNat]; omega)

@[simp] theorem Operation.length_halt : Operation.halt.length = 1 := rfl
@[simp] theorem Operation.length_load : Operation.load.length = 10 := rfl
@[simp] theorem Operation.length_add : Operation.add.length = 4 := rfl
@[simp] theorem Operation.length_sub : Operation.sub.length = 4 := rfl
@[simp] theorem Operation.length_mul : Operation.mul.length = 4 := rfl
@[simp] theorem Operation.length_div : Operation.div.length = 4 := rfl
@[simp] theorem Operation.length_jmp : Operation.jmp.length = 2 := rfl
@[simp] theorem Operation.length_jumpForward : Operation.jumpForward.length = 2 := rfl
@[simp] theorem Operation.length_jumpBackward : Operation.jumpBackward.length = 2 := rfl
@[simp] theorem Operation.length_cmp : Operation.cmp.length = 3 := rfl
@[simp] theorem Operation.length_jeq : Operation.jeq.length = 2 := rfl
@[simp] theorem Operation.length_jne : Operation.jne.length = 2 := rfl
@[simp] theorem Operation.length_jgt : Operation.jgt.length = 2 := rfl
@[simp] theorem Operation.length_jlt : Operation.jlt.length = 2 := rfl
@[simp] theorem Operation.length_jumpGreaterOrEqual : Operation.jumpGreaterOrEqual.length = 2 := rfl
@[simp] theorem Operation.length_jumpLessOrEqual : Operation.jumpLessOrEqual.length = 2 := rfl
@[simp] theorem Operation.length_write : Operation.write.length = 11 := rfl
@[simp] theorem Operation.length_writePointer : Operation.writePointer.length = 11 := rfl
@[simp] theorem Operation.length_loadPointer : Operation.loadPointer.length = 10 := rfl
@[simp] theorem Operation.length_dereference : Operation.dereference.length = 4 := rfl
@[simp] theorem Operation.length_illegal : Operation.illegal.length = 1 := rfl

theorem formatR_eq_none_iff (mk : RegIdx → Instr) (bs : List Byte) : formatR mk bs = none ↔ bs.length < 1 := by
  cases bs <;> simp [formatR]

theorem formatRR_eq_none_iff (mk : RegIdx → RegIdx → Instr) (bs : List Byte) :
    formatRR mk bs = none ↔ bs.length < 2 := by
  match bs with
  | [] => simp [formatRR]
  | [_] => simp [formatRR]
  | _ :: _ :: _ => simp [formatRR]

theorem formatRRR_eq_none_iff (mk : RegIdx → RegIdx → RegIdx → Instr) (bs : List Byte) :
    formatRRR mk bs = none ↔ bs.length < 3 := by
  match bs with
  | [] => simp [formatRRR]
  | [_] => simp [formatRRR]
  | [_, _] => simp [formatRRR]
  | _ :: _ :: _ :: _ => simp [formatRRR]

theorem formatRI_eq_none_iff (mk : RegIdx → Word → Instr) (bs : List Byte) :
    formatRI mk bs = none ↔ bs.length < 9 := by
  match bs with
  | [] => simp [formatRI]
  | _ :: r => simp [formatRI, readImm_eq_none_iff]; omega

theorem formatRRI_eq_none_iff (mk : RegIdx → RegIdx → Word → Instr) (bs : List Byte) :
    formatRRI mk bs = none ↔ bs.length < 10 := by
  match bs with
  | [] => simp [formatRRI]
  | [_] => simp [formatRRI]
  | _ :: _ :: r => simp [formatRRI, readImm_eq_none_iff]; omega

theorem formatN_eq_some {j i : Instr} {bs rest : List Byte} (h : formatN j bs = some (i, rest)) :
    i = j ∧ bs = rest := by
  simp only [formatN, Option.some.injEq, Prod.mk.injEq] at h
  exact ⟨h.1.symm, h.2⟩

theorem formatR_eq_some {mk : RegIdx → Instr} {bs rest : List Byte} {i : Instr}
    (h : formatR mk bs = some (i, rest)) : ∃ a, i = mk a ∧ bs = a :: rest := by
  match bs, h with
  | a :: r, h =>
    simp only [formatR, Option.some.injEq, Prod.mk.injEq] at h
    exact ⟨a, h.1.symm, by rw [h.2]⟩

theorem formatRR_eq_some {mk : RegIdx → RegIdx → Instr} {bs rest : List Byte} {i : Instr}
    (h : formatRR mk bs = some (i, rest)) : ∃ a b, i = mk a b ∧ bs = a :: b :: rest := by
  match bs, h with
  | a :: b :: r, h =>
    simp only [formatRR, Option.some.injEq, Prod.mk.injEq] at h
    exact ⟨a, b, h.1.symm, by rw [h.2]⟩

theorem formatRRR_eq_some {mk : RegIdx → RegIdx → RegIdx → Instr} {bs rest : List Byte} {i : Instr}
    (h : formatRRR mk bs = some (i, rest)) : ∃ a b c, i = mk a b c ∧ bs = a :: b :: c :: rest := by
  match bs, h with
  | a :: b :: c :: r, h =>
    simp only [formatRRR, Option.some.injEq, Prod.mk.injEq] at h
    exact ⟨a, b, c, h.1.symm, by rw [h.2]⟩

theorem formatRI_eq_some {mk : RegIdx → Word → Instr} {bs rest : List Byte} {i : Instr}
    (h : formatRI mk bs = some (i, rest)) : ∃ a w, i = mk a w ∧ bs = a :: (be64Bytes w ++ rest) := by
  match bs, h with
  | a :: r, h =>
    simp only [formatRI, Option.map_eq_some_iff, Prod.mk.injEq, Prod.exists] at h
    obtain ⟨w, r', hr, rfl, rfl⟩ := h
    exact ⟨a, w, rfl, by rw [readImm_eq_some hr]⟩

theorem formatRRI_eq_some {mk : RegIdx → RegIdx → Word → Instr} {bs rest : List Byte} {i : Instr}
    (h : formatRRI mk bs = some (i, rest)) :
    ∃ a b w, i = mk a b w ∧ bs = a :: b :: (be64Bytes w ++ rest) := by
  match bs, h with
  | a :: b :: r, h =>
    simp only [formatRRI, Option.map_eq_some_iff, Prod.mk.injEq, Prod.exists] at h
    obtain ⟨w, r', hr, rfl, rfl⟩ := h
    exact ⟨a, b, w, rfl, by rw [readImm_eq_some hr]⟩

/-- An operation's operand bytes are cut short exactly when fewer than `L(op) - 1` bytes follow the opcode. -/
theorem decodeAs_eq_none_iff (op : Operation) (b : Byte) (bs : List Byte) :
    decodeAs op b bs = none ↔ bs.length + 1 < op.length := by
  cases op <;>
    simp [decodeAs, formatN, formatR_eq_none_iff, formatRR_eq_none_iff, formatRRR_eq_none_iff,
      formatRI_eq_none_iff, formatRRI_eq_none_iff] <;> omega

/-- What `decode` gives, in the three cases. -/
theorem decode_cons (b : Byte) (bs : List Byte) :
    decode (b :: bs) = match decodeAs (decodeOp b) b bs with
      | some (i, rest) => .instr i rest
      | none => .truncated (decodeOp b) := rfl

theorem decode_eq_instr {bs rest : List Byte} {i : Instr} (h : decode bs = .instr i rest) :
    ∃ b tail, bs = b :: tail ∧ decodeAs (decodeOp b) b tail = some (i, rest) := by
  match bs, h with
  | b :: tail, h =>
    rw [decode_cons] at h
    split at h
    · next i' r' hd => cases h; exact ⟨b, tail, rfl, hd⟩
    · cases h

theorem decode_eq_truncated {bs : List Byte} {op : Operation} (h : decode bs = .truncated op) :
    ∃ b tail, bs = b :: tail ∧ op = decodeOp b ∧ decodeAs op b tail = none := by
  match bs, h with
  | b :: tail, h =>
    rw [decode_cons] at h
    split at h
    · cases h
    · next hd => cases h; exact ⟨b, tail, rfl, rfl, hd⟩

theorem decode_eq_endOfBytes_iff (bs : List Byte) : decode bs = .endOfBytes ↔ bs = [] := by
  match bs with
  | [] => simp [decode]
  | b :: tail =>
    rw [decode_cons]
    split <;> simp

end Sys2Proof
end

