-- ==== Sys2Proof/Laws/State.lean ====
section
/-! SUPPORT. One lemma per field of State per update, and the register file's read and write laws. -/

namespace Sys2Proof.Machine

variable (s : State)

@[simp] theorem State.setPc_regs (p : Word) : (s.setPc p).regs = s.regs := rfl
@[simp] theorem State.setPc_pc (p : Word) : (s.setPc p).pc = p := rfl
@[simp] theorem State.setPc_flag (p : Word) : (s.setPc p).flag = s.flag := rfl
@[simp] theorem State.setPc_rem (p : Word) : (s.setPc p).rem = s.rem := rfl
@[simp] theorem State.setPc_mem (p : Word) : (s.setPc p).mem = s.mem := rfl

@[simp] theorem State.advance_regs (n : Nat) : (s.advance n).regs = s.regs := rfl
@[simp] theorem State.advance_pc (n : Nat) : (s.advance n).pc = s.pc + BitVec.ofNat 64 n := rfl
@[simp] theorem State.advance_flag (n : Nat) : (s.advance n).flag = s.flag := rfl
@[simp] theorem State.advance_rem (n : Nat) : (s.advance n).rem = s.rem := rfl
@[simp] theorem State.advance_mem (n : Nat) : (s.advance n).mem = s.mem := rfl

@[simp] theorem State.setFlag_regs (f : Flag) : (s.setFlag f).regs = s.regs := rfl
@[simp] theorem State.setFlag_pc (f : Flag) : (s.setFlag f).pc = s.pc := rfl
@[simp] theorem State.setFlag_flag (f : Flag) : (s.setFlag f).flag = f := rfl
@[simp] theorem State.setFlag_rem (f : Flag) : (s.setFlag f).rem = s.rem := rfl
@[simp] theorem State.setFlag_mem (f : Flag) : (s.setFlag f).mem = s.mem := rfl

@[simp] theorem State.setRem_regs (w : Word) : (s.setRem w).regs = s.regs := rfl
@[simp] theorem State.setRem_pc (w : Word) : (s.setRem w).pc = s.pc := rfl
@[simp] theorem State.setRem_flag (w : Word) : (s.setRem w).flag = s.flag := rfl
@[simp] theorem State.setRem_rem (w : Word) : (s.setRem w).rem = w := rfl
@[simp] theorem State.setRem_mem (w : Word) : (s.setRem w).mem = s.mem := rfl

@[simp] theorem State.writeReg_pc (i : RegIdx) (v : Value) : (s.writeReg i v).pc = s.pc := rfl
@[simp] theorem State.writeReg_flag (i : RegIdx) (v : Value) : (s.writeReg i v).flag = s.flag := rfl
@[simp] theorem State.writeReg_rem (i : RegIdx) (v : Value) : (s.writeReg i v).rem = s.rem := rfl
@[simp] theorem State.writeReg_mem (i : RegIdx) (v : Value) : (s.writeReg i v).mem = s.mem := rfl

@[simp] theorem State.heapWrite_regs (id k : Nat) (v : Value) : (s.heapWrite id k v).regs = s.regs := rfl
@[simp] theorem State.heapWrite_pc (id k : Nat) (v : Value) : (s.heapWrite id k v).pc = s.pc := rfl
@[simp] theorem State.heapWrite_flag (id k : Nat) (v : Value) : (s.heapWrite id k v).flag = s.flag := rfl
@[simp] theorem State.heapWrite_rem (id k : Nat) (v : Value) : (s.heapWrite id k v).rem = s.rem := rfl
@[simp] theorem State.heapWrite_mem (id k : Nat) (v : Value) :
    (s.heapWrite id k v).mem = s.mem.heapWrite id k v := rfl

@[simp] theorem Memory.heapWrite_program (m : Memory) (id k : Nat) (v : Value) :
    (m.heapWrite id k v).program = m.program := rfl

/-! ### Registers -/

@[simp] theorem State.readReg_setPc (p : Word) (i : RegIdx) : (s.setPc p).readReg i = s.readReg i := rfl
@[simp] theorem State.readReg_advance (n : Nat) (i : RegIdx) : (s.advance n).readReg i = s.readReg i := rfl
@[simp] theorem State.readReg_setFlag (f : Flag) (i : RegIdx) : (s.setFlag f).readReg i = s.readReg i := rfl
@[simp] theorem State.readReg_setRem (w : Word) (i : RegIdx) : (s.setRem w).readReg i = s.readReg i := rfl
@[simp] theorem State.readReg_heapWrite (id k : Nat) (v : Value) (i : RegIdx) :
    (s.heapWrite id k v).readReg i = s.readReg i := rfl

@[simp] theorem State.readReg_writeReg_same (i : RegIdx) (v : Value) : (s.writeReg i v).readReg i = v := by
  simp [State.readReg, State.writeReg]

theorem State.readReg_writeReg_other {i j : RegIdx} (h : j ≠ i) (v : Value) :
    (s.writeReg i v).readReg j = s.readReg j := by
  have hij : i.toNat ≠ j.toNat := fun he => h (BitVec.eq_of_toNat_eq he.symm)
  simp [State.readReg, State.writeReg, Vector.getElem_set_ne, hij]

theorem State.readReg_writeReg (i j : RegIdx) (v : Value) :
    (s.writeReg i v).readReg j = if j = i then v else s.readReg j := by
  split
  · next h => subst h; simp
  · next h => exact s.readReg_writeReg_other h v

theorem State.readReg_reset (i : RegIdx) : State.reset.readReg i = Value.zero := by
  simp [State.readReg, State.reset]

/-- Two states with the same registers, pc, flag, remainder and memory are one state. -/
theorem State.ext_reads {s t : State} (hr : ∀ i, s.readReg i = t.readReg i) (hp : s.pc = t.pc)
    (hf : s.flag = t.flag) (hm : s.rem = t.rem) (hmem : s.mem = t.mem) : s = t := by
  have hregs : s.regs = t.regs := by
    apply Vector.ext
    intro i hi
    have := hr (BitVec.ofNat 8 i)
    have hmod : i % 256 = i := Nat.mod_eq_of_lt hi
    simpa [State.readReg, BitVec.toNat_ofNat, hmod] using this
  cases s; cases t
  simp_all

/-! ### Retagging the block-id register -/

@[simp] theorem retagBlockReg_pc (rb : RegIdx) : (retagBlockReg s rb).pc = s.pc := rfl
@[simp] theorem retagBlockReg_flag (rb : RegIdx) : (retagBlockReg s rb).flag = s.flag := rfl
@[simp] theorem retagBlockReg_rem (rb : RegIdx) : (retagBlockReg s rb).rem = s.rem := rfl
@[simp] theorem retagBlockReg_mem (rb : RegIdx) : (retagBlockReg s rb).mem = s.mem := rfl

@[simp] theorem readReg_retagBlockReg_same (rb : RegIdx) :
    (retagBlockReg s rb).readReg rb = Value.ofAddr (blockId s rb) := by
  simp [retagBlockReg]

theorem readReg_retagBlockReg_other {rb j : RegIdx} (h : j ≠ rb) :
    (retagBlockReg s rb).readReg j = s.readReg j := s.readReg_writeReg_other h _

@[simp] theorem blockId_heapWrite (id k : Nat) (v : Value) (rb : RegIdx) :
    blockId (s.heapWrite id k v) rb = blockId s rb := rfl

end Sys2Proof.Machine
end

