-- ==== Sys2Proof/Laws/Memory.lean ====
section
/-! SUPPORT. Sparse maps, blocks and the heap: what each operation reads as, and that each keeps the canonical form. -/

namespace Sys2Proof.Machine

section Sparse
variable {α : Type}

@[simp] theorem Sparse.get?_put_same (k : Nat) (v : α) (l : List (Nat × α)) :
    Sparse.get? k (Sparse.put k v l) = some v := by
  induction l with
  | nil => simp [Sparse.put, Sparse.get?]
  | cons c rest ih =>
    obtain ⟨j, w⟩ := c
    simp only [Sparse.put]
    split
    · simp [Sparse.get?]
    · split
      · simp [Sparse.get?]
      · next h => simp [Sparse.get?, h, ih]

theorem Sparse.get?_put_other {k k' : Nat} (h : k' ≠ k) (v : α) (l : List (Nat × α)) :
    Sparse.get? k' (Sparse.put k v l) = Sparse.get? k' l := by
  induction l with
  | nil => simp [Sparse.put, Sparse.get?, h]
  | cons c rest ih =>
    obtain ⟨j, w⟩ := c
    simp only [Sparse.put]
    split
    · simp [Sparse.get?, h]
    · split
      · next hkj => subst hkj; simp [Sparse.get?, h]
      · simp [Sparse.get?, ih]

@[simp] theorem Sparse.get?_erase_same (k : Nat) (l : List (Nat × α)) :
    Sparse.get? k (Sparse.erase k l) = none := by
  induction l with
  | nil => rfl
  | cons c rest ih =>
    obtain ⟨j, w⟩ := c
    by_cases h : j = k
    · simpa [Sparse.erase, h] using ih
    · have h' : k ≠ j := fun e => h e.symm
      simpa [Sparse.erase, h, Sparse.get?, h'] using ih

theorem Sparse.get?_erase_other {k k' : Nat} (h : k' ≠ k) (l : List (Nat × α)) :
    Sparse.get? k' (Sparse.erase k l) = Sparse.get? k' l := by
  induction l with
  | nil => rfl
  | cons c rest ih =>
    obtain ⟨j, w⟩ := c
    by_cases hj : j = k
    · subst hj
      simpa [Sparse.erase, Sparse.get?, h] using ih
    · by_cases hk : k' = j
      · simp [Sparse.erase, hj, Sparse.get?, hk]
      · simpa [Sparse.erase, hj, Sparse.get?, hk] using ih

theorem Sparse.mem_of_get? {k : Nat} {v : α} {l : List (Nat × α)} (h : Sparse.get? k l = some v) : (k, v) ∈ l := by
  induction l with
  | nil => simp [Sparse.get?] at h
  | cons c rest ih =>
    obtain ⟨j, w⟩ := c
    simp only [Sparse.get?] at h
    split at h
    · next hk => simp_all
    · exact List.mem_cons_of_mem _ (ih h)

theorem Sparse.mem_put {k : Nat} {v : α} {l : List (Nat × α)} {c : Nat × α} (h : c ∈ Sparse.put k v l) :
    c = (k, v) ∨ c ∈ l := by
  induction l with
  | nil => simp_all [Sparse.put]
  | cons d rest ih =>
    obtain ⟨j, w⟩ := d
    simp only [Sparse.put] at h
    split at h
    · simpa using h
    · split at h
      · rcases List.mem_cons.1 h with h | h <;> simp [h]
      · rcases List.mem_cons.1 h with h | h
        · simp [h]
        · rcases ih h with h | h <;> simp [h]

theorem Sparse.mem_erase {k : Nat} {l : List (Nat × α)} {c : Nat × α} (h : c ∈ Sparse.erase k l) : c ∈ l :=
  List.mem_of_mem_filter h

@[simp] theorem Sparse.rising_nil : Sparse.Rising ([] : List (Nat × α)) := List.Pairwise.nil

@[simp] theorem Sparse.rising_cons {j : Nat} {w : α} {l : List (Nat × α)} :
    Sparse.Rising ((j, w) :: l) ↔ (∀ c ∈ l, j < c.1) ∧ Sparse.Rising l := by
  simp [Sparse.Rising]

theorem Sparse.rising_put {k : Nat} {v : α} {l : List (Nat × α)} (h : Sparse.Rising l) :
    Sparse.Rising (Sparse.put k v l) := by
  induction l with
  | nil => simp [Sparse.put]
  | cons d rest ih =>
    obtain ⟨j, w⟩ := d
    obtain ⟨hlt, hrest⟩ := Sparse.rising_cons.1 h
    simp only [Sparse.put]
    split
    · next hkj =>
      refine Sparse.rising_cons.2 ⟨fun c hc => ?_, h⟩
      rcases List.mem_cons.1 hc with rfl | hc
      · exact hkj
      · exact Nat.lt_trans hkj (hlt c hc)
    · split
      · next hkj => subst hkj; exact Sparse.rising_cons.2 ⟨hlt, hrest⟩
      · next h1 h2 =>
        refine Sparse.rising_cons.2 ⟨fun c hc => ?_, ih hrest⟩
        rcases Sparse.mem_put hc with rfl | hc
        · show j < k; omega
        · exact hlt c hc

theorem Sparse.rising_erase {k : Nat} {l : List (Nat × α)} (h : Sparse.Rising l) :
    Sparse.Rising (Sparse.erase k l) :=
  List.Pairwise.sublist (List.Sublist.map _ (List.filter_sublist (l := l))) h

/-- A rising list is determined by what its keys read as. -/
theorem Sparse.ext {l m : List (Nat × α)} (hl : Sparse.Rising l) (hm : Sparse.Rising m)
    (h : ∀ k, Sparse.get? k l = Sparse.get? k m) : l = m := by
  induction l generalizing m with
  | nil =>
    cases m with
    | nil => rfl
    | cons d _ => have := h d.1; simp [Sparse.get?] at this
  | cons c l ih =>
    obtain ⟨j, w⟩ := c
    cases m with
    | nil => have := h j; simp [Sparse.get?] at this
    | cons d m =>
      obtain ⟨i, x⟩ := d
      obtain ⟨hjl, hl'⟩ := Sparse.rising_cons.1 hl
      obtain ⟨him, hm'⟩ := Sparse.rising_cons.1 hm
      have hji : j = i := by
        have h1 := h j
        have h2 := h i
        simp only [Sparse.get?, if_true] at h1 h2
        by_contra hne
        have hne' : i ≠ j := fun e => hne e.symm
        rw [if_neg hne] at h1
        rw [if_neg hne'] at h2
        have := him _ (Sparse.mem_of_get? h1.symm)
        have := hjl _ (Sparse.mem_of_get? h2)
        omega
      subst hji
      have hwx : w = x := by simpa [Sparse.get?] using h j
      subst hwx
      have key : ∀ k, Sparse.get? k l = Sparse.get? k m := by
        intro k
        by_cases hk : k = j
        · subst hk
          have none_of : ∀ {n : List (Nat × α)}, (∀ c ∈ n, k < c.1) → Sparse.get? k n = none := by
            intro n hn
            cases hg : Sparse.get? k n with
            | none => rfl
            | some v => exact absurd (hn _ (Sparse.mem_of_get? hg)) (Nat.lt_irrefl _)
          rw [none_of hjl, none_of him]
        · simpa [Sparse.get?, hk] using h k
      rw [ih hl' hm' key]

end Sparse

/-! ### Blocks -/

@[simp] theorem Block.store_len (b : Block) (k : Nat) (v : Value) : (b.store k v).len = max b.len (k + 1) := rfl

@[simp] theorem Block.slot_store_same (b : Block) (k : Nat) (v : Value) : (b.store k v).slot k = v := by
  simp only [Block.store, Block.slot]
  split
  · next h => simp [h]
  · simp

theorem Block.slot_store_other (b : Block) {k j : Nat} (h : j ≠ k) (v : Value) :
    (b.store k v).slot j = b.slot j := by
  simp only [Block.store, Block.slot]
  split
  · rw [Sparse.get?_erase_other h]
  · rw [Sparse.get?_put_other h]

/-- Past a canonical block's length every slot reads as `Int(0)`: growth makes such slots (R55). -/
theorem Block.slot_past_end {b : Block} (hb : ∀ c ∈ b.slots, c.1 < b.len ∧ c.2 ≠ Value.zero) {k : Nat}
    (hk : b.len ≤ k) : b.slot k = Value.zero := by
  cases hg : Sparse.get? k b.slots with
  | none => simp [Block.slot, hg]
  | some v => exact absurd (hb _ (Sparse.mem_of_get? hg)).1 (by simpa using hk)

theorem Block.store_wf {b : Block} {k : Nat} {v : Value} (hb : b = Block.empty ∨ b.wf) (hk : k < 2 ^ 64) :
    (b.store k v).wf := by
  have hlen : b.len ≤ Config.maxSlots := by
    rcases hb with rfl | hb
    · simp [Block.empty]
    · exact hb.2.1
  have hr : Sparse.Rising b.slots := by
    rcases hb with rfl | hb
    · simp [Block.empty]
    · exact hb.2.2.1
  have hs : ∀ c ∈ b.slots, c.1 < b.len ∧ c.2 ≠ Value.zero := by
    rcases hb with rfl | hb
    · simp [Block.empty]
    · exact hb.2.2.2
  refine ⟨by simp, by simp [Config.maxSlots] at *; omega, ?_, ?_⟩
  · simp only [Block.store]
    split
    · exact Sparse.rising_erase hr
    · exact Sparse.rising_put hr
  · intro c hc
    have old : c ∈ b.slots → c.1 < (b.store k v).len ∧ c.2 ≠ Value.zero := fun h =>
      ⟨by have := (hs c h).1; simp; omega, (hs c h).2⟩
    simp only [Block.store] at hc
    split at hc
    · exact old (Sparse.mem_erase hc)
    · next hv =>
      rcases Sparse.mem_put hc with rfl | hc
      · exact ⟨by simp, hv⟩
      · exact old hc

/-! ### The heap -/

theorem Memory.block?_wf {m : Memory} (hm : m.wf) {id : Nat} {b : Block} (h : m.block? id = some b) : b.wf :=
  (hm.2.2 _ (Sparse.mem_of_get? h)).2

theorem Memory.block?_heapWrite (m : Memory) (id k : Nat) (v : Value) (id' : Nat) :
    (m.heapWrite id k v).block? id' =
      if id' = id then some (((m.block? id).getD Block.empty).store k v) else m.block? id' := by
  simp only [Memory.heapWrite, Memory.block?]
  split
  · next h => subst h; simp
  · next h => rw [Sparse.get?_put_other h]

/-- Every heap write keeps the canonical form; heap reads and fetches write nothing. -/
theorem Memory.heapWrite_wf {m : Memory} (hm : m.wf) {id k : Nat} (hid : id < 2 ^ 64) (hk : k < 2 ^ 64) (v : Value) :
    (m.heapWrite id k v).wf := by
  refine ⟨hm.1, Sparse.rising_put hm.2.1, fun c hc => ?_⟩
  rcases Sparse.mem_put hc with rfl | hc
  · refine ⟨hid, Block.store_wf ?_ hk⟩
    cases hb : m.block? id with
    | none => exact .inl rfl
    | some b => exact .inr (Memory.block?_wf hm hb)
  · exact hm.2.2 c hc

/-- Growing the program buffer within `PROG_MAX` keeps the canonical form. -/
theorem Memory.program_append_wf {m : Memory} (hm : m.wf) {bytes : List Byte}
    (h : m.program.length + bytes.length ≤ Config.progMax) :
    Memory.wf { m with program := m.program ++ bytes } :=
  ⟨by simpa using h, hm.2⟩

theorem Memory.reset_wf : State.reset.mem.wf := by
  simp [State.reset, Config.progInit, Sparse.Rising, Memory.wf]

end Sys2Proof.Machine
end

