-- ==== Sys2Proof/Laws/Operands.lean ====
section
/-! SUPPORT. The number conversions and the coercions: ranges, congruence, and how results read back. -/

namespace Sys2Proof.Machine

theorem toU64_lt (n : Int) : toU64 n < 2 ^ 64 := by
  unfold toU64; omega

theorem toU64_cast (n : Int) : (toU64 n : Int) = n % 2 ^ 64 := by
  unfold toU64; omega

theorem toS64_range (n : Int) : -2 ^ 63 ≤ toS64 n ∧ toS64 n ≤ 2 ^ 63 - 1 := by
  unfold toS64; dsimp only; split <;> omega

/-- The 64-bit pattern of an exact result reads back, signed, as `to_s64` of it. -/
theorem toInt_ofInt_eq_toS64 (n : Int) : (BitVec.ofInt 64 n).toInt = toS64 n := by
  rw [BitVec.toInt_ofInt, Int.bmod]
  unfold toS64
  norm_num

theorem toS64_of_range {n : Int} (h1 : -2 ^ 63 ≤ n) (h2 : n < 2 ^ 63) : toS64 n = n := by
  unfold toS64; dsimp only; split <;> omega

theorem toInt_bounds (w : Word) : -2 ^ 63 ≤ w.toInt ∧ w.toInt < 2 ^ 63 := by
  have h1 := BitVec.le_toInt w
  have h2 := BitVec.toInt_lt (x := w)
  norm_num at h1 h2 ⊢
  exact ⟨h1, h2⟩

theorem toU64_toInt (w : Word) : toU64 w.toInt = w.toNat := by
  have := w.isLt
  unfold toU64
  rw [BitVec.toInt_eq_toNat_cond]
  split <;> omega

theorem toS64_toNat (w : Word) : toS64 w.toNat = w.toInt := by
  have := w.isLt
  unfold toS64
  rw [BitVec.toInt_eq_toNat_cond]
  dsimp only
  split <;> split <;> omega

@[simp] theorem Value.asS_int (v : Word) : (Value.int v).asS = v.toInt := rfl
@[simp] theorem Value.asS_ptr (p : Word) : (Value.ptr p).asS = p.toInt := toS64_toNat p
@[simp] theorem Value.asU_int (v : Word) : (Value.int v).asU = v.toNat := toU64_toInt v
@[simp] theorem Value.asU_ptr (p : Word) : (Value.ptr p).asU = p.toNat := rfl

theorem Value.asU_lt (t : Value) : t.asU < 2 ^ 64 := by
  cases t <;> simpa using BitVec.isLt _

theorem Value.asS_bounds (t : Value) : -2 ^ 63 ≤ t.asS ∧ t.asS < 2 ^ 63 := by
  cases t <;> simpa using toInt_bounds _

@[simp] theorem Value.asS_ofInt (n : Int) : (Value.ofInt n).asS = toS64 n := toInt_ofInt_eq_toS64 n

theorem Value.ofAddr_asU (t : Value) : (Value.ofAddr t.asU).asU = t.asU := by
  have := t.asU_lt
  simp only [Value.ofAddr, Value.asU_ptr, BitVec.toNat_ofNat]
  exact Nat.mod_eq_of_lt this

theorem blockId_lt (s : State) (rb : RegIdx) : blockId s rb < 2 ^ 64 := Value.asU_lt _

theorem slotIndex_lt (s : State) (ro : RegIdx) : slotIndex s ro < 2 ^ 64 := Value.asU_lt _

end Sys2Proof.Machine
end

