-- ==== Sys2Proof/Laws/Exec.lean ====
section
/-! SUPPORT. What each shared operation of the meanings can do, said once; what `exec`, `step` and `cycle` can do. -/

namespace Sys2Proof.Machine

variable {s t : State}

/-! ### The shared operations: if it answers a next state, that state is this one -/

theorem loadValue_eq {rd : RegIdx} {v : Value} :
    loadValue rd v s = .next t ↔ t = (s.writeReg rd v).advance 10 := by
  simp [loadValue, eq_comm]

theorem arith_eq {f : Int → Int → Int} {a b d : RegIdx} :
    arith f a b d s = .next t ↔
      t = (s.writeReg d (Value.ofInt (f (s.readReg a).asS (s.readReg b).asS))).advance 4 := by
  simp [arith, eq_comm]

/-- Div either finds a zero divisor and faults, or completes with the remainder written first. -/
theorem execDiv_cases (a b d : RegIdx) (s : State) :
    ((s.readReg b).asS = 0 ∧ execDiv a b d s = .fault (.divisionByZero s.pc)) ∨
    ((s.readReg b).asS ≠ 0 ∧ execDiv a b d s = .next
      (((s.setRem (BitVec.ofNat 64 (toU64 (divRemainder (s.readReg a).asS (s.readReg b).asS)))).writeReg d
        (Value.ofInt (divQuotient (s.readReg a).asS (s.readReg b).asS))).advance 4)) := by
  by_cases h : (s.readReg b).asS = 0
  · exact .inl ⟨h, by simp [execDiv, h, raise]⟩
  · exact .inr ⟨h, by simp [execDiv, h, arith]⟩

theorem jumpAbsolute_eq {rt : RegIdx} :
    jumpAbsolute rt s = .next t ↔ t = s.setPc (BitVec.ofNat 64 (s.readReg rt).asU) := by
  simp [jumpAbsolute, eq_comm]

/-- A conditional jump always completes: taken or past its two bytes. -/
theorem condJump_eq (taken : Flag → Bool) (rt : RegIdx) (s : State) :
    condJump taken rt s = .next
      (if taken s.flag then s.setPc (BitVec.ofNat 64 (s.readReg rt).asU) else s.advance 2) := by
  unfold condJump jumpAbsolute
  split <;> rfl

theorem execJumpForward_cases (rt : RegIdx) (s : State) :
    (pcMax < relBase s + (s.readReg rt).asU ∧ execJumpForward rt s = .fault (.jumpOutOfRange s.pc)) ∨
    (relBase s + (s.readReg rt).asU ≤ pcMax ∧
      execJumpForward rt s = .next (s.setPc (BitVec.ofNat 64 (relBase s + (s.readReg rt).asU)))) := by
  by_cases h : pcMax < relBase s + (s.readReg rt).asU
  · exact .inl ⟨h, by simp [execJumpForward, h, raise]⟩
  · exact .inr ⟨Nat.le_of_not_lt h, by simp [execJumpForward, h]⟩

theorem execJumpBackward_cases (rt : RegIdx) (s : State) :
    (relBase s < (s.readReg rt).asU ∧ execJumpBackward rt s = .fault (.jumpOutOfRange s.pc)) ∨
    ((s.readReg rt).asU ≤ relBase s ∧
      execJumpBackward rt s = .next (s.setPc (BitVec.ofNat 64 (relBase s - (s.readReg rt).asU)))) := by
  by_cases h : relBase s < (s.readReg rt).asU
  · exact .inl ⟨h, by simp [execJumpBackward, h, raise]⟩
  · exact .inr ⟨Nat.le_of_not_lt h, by simp [execJumpBackward, h]⟩

theorem writeSlot_eq {rb ro : RegIdx} {v : Value} :
    writeSlot rb ro v s = .next t ↔
      t = (retagBlockReg (s.heapWrite (blockId s rb) (slotIndex s ro) v) rb).advance 11 := by
  simp [writeSlot, eq_comm]

/-- Dereference either finds no slot and faults, or copies the slot it finds. -/
theorem execDereference_cases (rb ro rd : RegIdx) (s : State) :
    (s.mem.heapRead (blockId s rb) (slotIndex s ro) = none ∧ execDereference rb ro rd s =
      .fault (.heapAccessOutOfRange s.pc (BitVec.ofNat 64 (blockId s rb)) (BitVec.ofNat 64 (slotIndex s ro)))) ∨
    ∃ v, s.mem.heapRead (blockId s rb) (slotIndex s ro) = some v ∧
      execDereference rb ro rd s = .next (((retagBlockReg s rb).writeReg rd v).advance 4) := by
  cases h : s.mem.heapRead (blockId s rb) (slotIndex s ro) with
  | none => exact .inl ⟨rfl, by simp [execDereference, h, raise]⟩
  | some v => exact .inr ⟨v, rfl, by simp [execDereference, h]⟩

/-- The heap read is defined exactly on the slots below a present block's length. -/
theorem Memory.heapRead_eq_some {m : Memory} {id k : Nat} {v : Value} :
    m.heapRead id k = some v ↔ ∃ b, m.block? id = some b ∧ k < b.len ∧ b.slot k = v := by
  unfold Memory.heapRead
  split
  · next h => simp [h]
  · next b h => simp [h]

theorem Memory.heapRead_eq_none {m : Memory} {id k : Nat} :
    m.heapRead id k = none ↔ m.block? id = none ∨ ∃ b, m.block? id = some b ∧ b.len ≤ k := by
  unfold Memory.heapRead
  split
  · next h => simp [h]
  · next b h => simp [h]

/-! ### exec, step and cycle -/

/-- An instruction leaves memory alone or makes one heap write at its effective address. -/
theorem exec_mem {i : Instr} (h : exec i s = .next t) :
    t.mem = s.mem ∨ ∃ rb ro imm v, (i = .write rb ro imm ∨ i = .writePointer rb ro imm) ∧
      t.mem = s.mem.heapWrite (blockId s rb) (slotIndex s ro) v := by
  cases i with
  | halt => cases h; exact .inl rfl
  | illegal b => cases h; exact .inl rfl
  | load rd imm => cases h; exact .inl rfl
  | loadPointer rd imm => cases h; exact .inl rfl
  | add a b d => cases h; exact .inl rfl
  | sub a b d => cases h; exact .inl rfl
  | mul a b d => cases h; exact .inl rfl
  | div a b d =>
    rcases execDiv_cases a b d s with ⟨-, e⟩ | ⟨-, e⟩ <;> cases e.symm.trans h
    exact .inl rfl
  | jmp rt => cases h; exact .inl rfl
  | jumpForward rt =>
    rcases execJumpForward_cases rt s with ⟨-, e⟩ | ⟨-, e⟩ <;> cases e.symm.trans h
    exact .inl rfl
  | jumpBackward rt =>
    rcases execJumpBackward_cases rt s with ⟨-, e⟩ | ⟨-, e⟩ <;> cases e.symm.trans h
    exact .inl rfl
  | cmp a b => cases h; exact .inl rfl
  | jeq rt => cases (condJump_eq jeqMatch rt s).symm.trans h; left; split <;> rfl
  | jne rt => cases (condJump_eq jneMatch rt s).symm.trans h; left; split <;> rfl
  | jgt rt => cases (condJump_eq jgtMatch rt s).symm.trans h; left; split <;> rfl
  | jlt rt => cases (condJump_eq jltMatch rt s).symm.trans h; left; split <;> rfl
  | jumpGreaterOrEqual rt => cases (condJump_eq jgeMatch rt s).symm.trans h; left; split <;> rfl
  | jumpLessOrEqual rt => cases (condJump_eq jleMatch rt s).symm.trans h; left; split <;> rfl
  | write rb ro imm => cases h; exact .inr ⟨rb, ro, imm, _, .inl rfl, rfl⟩
  | writePointer rb ro imm => cases h; exact .inr ⟨rb, ro, imm, _, .inr rfl, rfl⟩
  | dereference rb ro rd =>
    rcases execDereference_cases rb ro rd s with ⟨-, e⟩ | ⟨v, -, e⟩ <;> cases e.symm.trans h
    exact .inl rfl

/-- What a step can do: nothing at the end of the program, fault on a cut-short instruction, else run it. -/
theorem step_cases (s : State) :
    (fetch s = .endOfBytes ∧ step s = .next s) ∨
    (∃ op, fetch s = .truncated op ∧ step s = .fault (.decodeError s.pc op)) ∨
    ∃ i rest, fetch s = .instr i rest ∧ step s = exec i s := by
  unfold step raise
  cases h : fetch s with
  | endOfBytes => exact .inl ⟨rfl, rfl⟩
  | truncated op => exact .inr (.inl ⟨op, rfl, rfl⟩)
  | instr i rest => exact .inr (.inr ⟨i, rest, rfl, rfl⟩)

/-- A fetch finds no byte exactly at or past the end of the program. -/
theorem fetch_eq_endOfBytes_iff (s : State) : fetch s = .endOfBytes ↔ s.mem.program.length ≤ s.pc.toNat := by
  rw [fetch, decode_eq_endOfBytes_iff, List.drop_eq_nil_iff]

/-- The bytes at the pc start with the byte there. -/
theorem drop_eq_cons {p : List Byte} {n : Nat} {b : Byte} {tail : List Byte} (h : p.drop n = b :: tail) :
    p[n]? = some b ∧ n < p.length := by
  have hl : n < p.length := by
    by_contra hn
    rw [List.drop_eq_nil_iff.2 (Nat.le_of_not_lt hn)] at h
    cases h
  refine ⟨?_, hl⟩
  rw [List.drop_eq_getElem_cons hl] at h
  rw [List.getElem?_eq_getElem hl]
  exact congrArg some (List.cons.inj h).1

/-- What a cycle reports, by what the step answers. -/
theorem cycle_of_next (h : step s = .next t) :
    cycle s = (t, match haltSignal s with | some reason => .halt reason | none => .continues) := by
  unfold cycle
  rw [h]
  cases haltSignal s <;> rfl

theorem cycle_of_fault {f : Fault} (h : step s = .fault f) : cycle s = (s, .fault f) := by
  unfold cycle; rw [h]

/-- What an append can do. -/
theorem append_eq_some {bytes : List Byte} :
    append bytes s = some t ↔ s.mem.program.length + bytes.length ≤ Config.progMax ∧
      t = { s with mem := { s.mem with program := s.mem.program ++ bytes } } := by
  unfold append
  split
  · next h => simp [h, eq_comm]
  · next h => simp [h]

/-- Placing a word of the opcode table at the pc leaves everything but the program buffer alone. -/
theorem withFetchWord_frame (s : State) (nbits w : Nat) :
    (s.withFetchWord nbits w).regs = s.regs ∧ (s.withFetchWord nbits w).pc = s.pc ∧
      (s.withFetchWord nbits w).flag = s.flag ∧ (s.withFetchWord nbits w).rem = s.rem ∧
      (s.withFetchWord nbits w).mem.heap = s.mem.heap := ⟨rfl, rfl, rfl, rfl, rfl⟩

/-- ... and the next fetch reads that word's bytes first. -/
theorem withFetchWord_fetch (s : State) (nbits w : Nat) :
    ∃ more, fetch (s.withFetchWord nbits w) = decode (layoutBytes nbits w ++ more) := by
  refine ⟨s.mem.program.drop (s.pc.toNat + maxLength), ?_⟩
  have hlen : (s.mem.program.take s.pc.toNat ++
      List.replicate (s.pc.toNat - s.mem.program.length) (0 : Byte)).length = s.pc.toNat := by
    simp; omega
  simp only [fetch, State.withFetchWord]
  rw [List.append_assoc, List.drop_append_of_le_length (Nat.le_of_eq hlen.symm),
    List.drop_eq_nil_iff.2 (Nat.le_of_eq hlen), List.nil_append]

end Sys2Proof.Machine
end

