-- ==== Sys2Proof/Laws/PerInstr.lean ====
section
/-! SUPPORT. Statements made per instruction: the family `EncodedLength` (R88, R93). -/

namespace Sys2Proof.Laws.EncodedLength

/-- The bytes of an instruction are `L(op)` many and start with its operation's opcode. -/
def Statement (i : Instr) : Prop :=
  (encode i).length = i.operation.length ∧ (i.wf = true → ((encode i).head?.map decodeOp) = some i.operation)

theorem halt : Statement .halt := ⟨rfl, fun _ => rfl⟩
theorem load (rd : RegIdx) (imm : Word) : Statement (.load rd imm) := ⟨rfl, fun _ => rfl⟩
theorem add (rs1 rs2 rd : RegIdx) : Statement (.add rs1 rs2 rd) := ⟨rfl, fun _ => rfl⟩
theorem sub (rs1 rs2 rd : RegIdx) : Statement (.sub rs1 rs2 rd) := ⟨rfl, fun _ => rfl⟩
theorem mul (rs1 rs2 rd : RegIdx) : Statement (.mul rs1 rs2 rd) := ⟨rfl, fun _ => rfl⟩
theorem div (rs1 rs2 rd : RegIdx) : Statement (.div rs1 rs2 rd) := ⟨rfl, fun _ => rfl⟩
theorem jmp (rt : RegIdx) : Statement (.jmp rt) := ⟨rfl, fun _ => rfl⟩
theorem jumpForward (rt : RegIdx) : Statement (.jumpForward rt) := ⟨rfl, fun _ => rfl⟩
theorem jumpBackward (rt : RegIdx) : Statement (.jumpBackward rt) := ⟨rfl, fun _ => rfl⟩
theorem cmp (ra rb : RegIdx) : Statement (.cmp ra rb) := ⟨rfl, fun _ => rfl⟩
theorem jeq (rt : RegIdx) : Statement (.jeq rt) := ⟨rfl, fun _ => rfl⟩
theorem jne (rt : RegIdx) : Statement (.jne rt) := ⟨rfl, fun _ => rfl⟩
theorem jgt (rt : RegIdx) : Statement (.jgt rt) := ⟨rfl, fun _ => rfl⟩
theorem jlt (rt : RegIdx) : Statement (.jlt rt) := ⟨rfl, fun _ => rfl⟩
theorem jumpGreaterOrEqual (rt : RegIdx) : Statement (.jumpGreaterOrEqual rt) := ⟨rfl, fun _ => rfl⟩
theorem jumpLessOrEqual (rt : RegIdx) : Statement (.jumpLessOrEqual rt) := ⟨rfl, fun _ => rfl⟩
theorem write (rb ro : RegIdx) (imm : Word) : Statement (.write rb ro imm) := ⟨rfl, fun _ => rfl⟩
theorem writePointer (rb ro : RegIdx) (imm : Word) : Statement (.writePointer rb ro imm) := ⟨rfl, fun _ => rfl⟩
theorem loadPointer (rd : RegIdx) (imm : Word) : Statement (.loadPointer rd imm) := ⟨rfl, fun _ => rfl⟩
theorem dereference (rb ro rd : RegIdx) : Statement (.dereference rb ro rd) := ⟨rfl, fun _ => rfl⟩
theorem illegal (b : Byte) : Statement (.illegal b) :=
  ⟨rfl, fun h => by simpa [encode, Instr.operation] using decodeOp_illegal b (of_decide_eq_true h)⟩

end Sys2Proof.Laws.EncodedLength
end

