-- ==== Sys2Proof/Tests/Slice0.lean ====
section
/-! SUPPORT. The model's own tests: expected results are the spec's, from spec/95_test_vectors.md and the worked examples
of the family files; the WellFormed smoke test; a written-out word for every constructor; and, for every statement with
hypotheses, a witness that they can be met. -/

namespace Sys2Proof.Tests

set_option Elab.async false

open Sys2Proof.Machine Sys2Proof.Spec

/-! ### Helpers -/

/-- Reset with some registers, a program, a pc, a flag and a heap preset, as the spec's vectors preset them. -/
def bench (regs : List (RegIdx × Value)) (program : List Byte) (pc : Word := 0) (flag : Flag := .none)
    (heap : List (Nat × Block) := []) : State :=
  regs.foldl (fun s r => s.writeReg r.1 r.2) { State.reset with pc := pc, flag := flag, mem := ⟨program, heap⟩ }

/-- The next state of an outcome. -/
def nextOf : Host.Outcome State Fault Refusal → Option State
  | .next s => some s
  | .fault _ => none
  | .refused _ => none

/-- The fault of an outcome. -/
def faultOf : Host.Outcome State Fault Refusal → Option Fault
  | .next _ => none
  | .fault f => some f
  | .refused _ => none

theorem eq_next_of_nextOf {o : Host.Outcome State Fault Refusal} {t : State} (h : nextOf o = some t) : o = .next t := by
  cases o <;> simp_all [nextOf]

/-- A next state exists when `nextOf` has one: the form witnesses use. -/
theorem next_exists {o : Host.Outcome State Fault Refusal} (h : (nextOf o).isSome = true) : ∃ t, o = .next t := by
  cases o <;> simp_all [nextOf]

theorem eq_fault_of_faultOf {o : Host.Outcome State Fault Refusal} {f : Fault} (h : faultOf o = some f) :
    o = .fault f := by
  cases o <;> simp_all [faultOf]

/-- A register and the pc after one step. -/
def stepReg (s : State) (r : RegIdx) : Option (Value × Word) := (nextOf (step s)).map fun t => (t.readReg r, t.pc)

/-- The pc after one step. -/
def stepPc (s : State) : Option Word := (nextOf (step s)).map State.pc

/-- Block 5 of spec/95_test_vectors.md section 2.11, "as given": length 3, `[Int(10), Int(11), Ptr(12)]`. -/
def block5 : List (Nat × Block) := [(5, ⟨3, [(0, .int 10), (1, .int 11), (2, .ptr 12)]⟩)]

/-! ### WellFormed: the one check refuses -/

theorem test_wf_illegal_below_20 : (Instr.illegal 19).wf = false := by decide
theorem test_wf_illegal_from_20 : (Instr.illegal 20).wf = true := by decide

/-! ### Words written out from the formats of R85 and the map of R86 (95_test_vectors.md section 2.2) -/

theorem test_decode_halt : decodeTableWord 8 0x00 = some .halt := by decide +kernel
theorem test_decode_load : decode [1, 255, 128, 0, 0, 0, 0, 0, 0, 1] = .instr (.load 255 0x8000000000000001) [] := by
  decide +kernel
theorem test_decode_load_table : decodeTableWord 80 0xF401000000000000_0001 = some (.load 0 500) := by decide +kernel
theorem test_decode_add : decode [2, 0, 1, 2] = .instr (.add 0 1 2) [] := by decide +kernel
theorem test_decode_sub : decode [3, 3, 4, 5] = .instr (.sub 3 4 5) [] := by decide +kernel
theorem test_decode_mul : decode [4, 6, 7, 8] = .instr (.mul 6 7 8) [] := by decide +kernel
theorem test_decode_div : decode [5, 9, 10, 11] = .instr (.div 9 10 11) [] := by decide +kernel
theorem test_decode_jmp : decode [6, 1] = .instr (.jmp 1) [] := by decide +kernel
theorem test_decode_jumpForward : decode [7, 2] = .instr (.jumpForward 2) [] := by decide +kernel
theorem test_decode_jumpBackward : decode [8, 3] = .instr (.jumpBackward 3) [] := by decide +kernel
theorem test_decode_cmp : decode [9, 4, 5] = .instr (.cmp 4 5) [] := by decide +kernel
theorem test_decode_jeq : decode [10, 0] = .instr (.jeq 0) [] := by decide +kernel
theorem test_decode_jne : decode [11, 1] = .instr (.jne 1) [] := by decide +kernel
theorem test_decode_jgt : decode [12, 2] = .instr (.jgt 2) [] := by decide +kernel
theorem test_decode_jlt : decode [13, 3] = .instr (.jlt 3) [] := by decide +kernel
theorem test_decode_jumpGreaterOrEqual : decode [14, 4] = .instr (.jumpGreaterOrEqual 4) [] := by decide +kernel
theorem test_decode_jumpLessOrEqual : decode [15, 5] = .instr (.jumpLessOrEqual 5) [] := by decide +kernel
theorem test_decode_write :
    decode [16, 1, 2, 128, 0, 0, 0, 0, 0, 0, 5] = .instr (.write 1 2 0x8000000000000005) [] := by decide +kernel
theorem test_decode_writePointer : decode [17, 1, 0, 0, 0, 0, 0, 0, 0, 0, 9, 7] = .instr (.writePointer 1 0 9) [7] := by
  decide +kernel
theorem test_decode_loadPointer :
    decode [18, 0, 128, 0, 0, 0, 0, 0, 0, 0] = .instr (.loadPointer 0 0x8000000000000000) [] := by decide +kernel
theorem test_decode_dereference : decode [19, 1, 2, 3] = .instr (.dereference 1 2 3) [] := by decide +kernel
theorem test_decode_illegal_lowest : decode [20] = .instr (.illegal 20) [] := by decide +kernel
theorem test_decode_illegal_highest : decode [255, 0] = .instr (.illegal 255) [0] := by decide +kernel
theorem test_decode_truncated : decode [1, 0, 0, 0, 0, 0, 0, 0, 1] = .truncated .load := by decide +kernel

/-- The lengths by opcode byte (95_test_vectors.md section 2.5). -/
theorem test_lengths : (List.range 21).map (fun b => (decodeOp (BitVec.ofNat 8 b)).length) =
    [1, 10, 4, 4, 4, 4, 2, 2, 2, 3, 2, 2, 2, 2, 2, 2, 11, 11, 10, 4, 1] := by decide +kernel

/-! ### Immediates and the checked encoder (sections 2.1 to 2.3) -/

theorem test_smDecode_minus_five : smDecode 0x8000000000000005 = -5 := by decide +kernel
theorem test_smDecode_bit62 : smDecode 0x4000000000000000 = 2 ^ 62 := by decide +kernel

theorem test_encode_load_negative :
    encodeTokens .load [.register 255, .negativeInteger 1] = .ok [1, 255, 128, 0, 0, 0, 0, 0, 0, 1] := by rfl
theorem test_encode_missing_operand :
    encodeTokens .add [.register 0, .register 1] = .error (.encodeArityMismatch (some .add)) := by rfl
theorem test_encode_negative_pointer :
    encodeTokens .loadPointer [.register 0, .negativeInteger 1] =
      .error (.encodeArityMismatch (some .loadPointer)) := by rfl
theorem test_encodeLexed_opcode_as_operand :
    encodeLexed [.opcode .jmp, .opcode .halt] = .error (.encodeArityMismatch (some .jmp)) := by rfl

/-! ### One step of each instruction -/

/-- Scenario A. -/
theorem test_halt : (cycle (bench [] [0])).2 = .halt .haltInstruction ∧ stepPc (bench [] [0]) = some 1 := by decide +kernel
theorem test_endOfProgram : (cycle State.reset).2 = .halt .endOfProgram ∧ stepPc State.reset = some 0 := by decide +kernel
theorem test_illegal : (cycle (bench [] [255])).2 = .halt (.unknownOpcode 0 255) ∧ stepPc (bench [] [255]) = some 1 := by
  decide +kernel

/-- Scenario B. -/
theorem test_load : stepReg (bench [] [1, 0, 0, 0, 0, 0, 0, 0, 1, 244]) 0 = some (.int 500, 10) := by decide +kernel
theorem test_load_negative : stepReg (bench [(0, .ptr 77)] [1, 0, 128, 0, 0, 0, 0, 0, 0, 1]) 0 =
    some (.int (BitVec.ofInt 64 (-1)), 10) := by decide +kernel
theorem test_loadPointer : stepReg (bench [] [18, 0, 128, 0, 0, 0, 0, 0, 0, 0]) 0 =
    some (.ptr 9223372036854775808, 10) := by decide +kernel

/-- Scenario C. -/
theorem test_add : stepReg (bench [(0, .int 500), (1, .int 2)] [2, 0, 1, 2]) 2 = some (.int 502, 4) := by decide +kernel
theorem test_add_pointer : stepReg (bench [(0, .ptr 18446744073709551615), (1, .int 1)] [2, 0, 1, 2]) 2 =
    some (.int 0, 4) := by decide +kernel
theorem test_sub : stepReg (bench [(0, .int 5), (1, .int 7)] [3, 0, 1, 2]) 2 =
    some (.int (BitVec.ofInt 64 (-2)), 4) := by decide +kernel
theorem test_sub_same_register : stepReg (bench [(3, .int 21)] [3, 3, 3, 3]) 3 = some (.int 0, 4) := by decide +kernel
theorem test_mul : stepReg (bench [(0, .int (BitVec.ofInt 64 (-6))), (1, .int 7)] [4, 0, 1, 2]) 2 =
    some (.int (BitVec.ofInt 64 (-42)), 4) := by decide +kernel
theorem test_mul_wraps : stepReg (bench [(0, .int 3037000500), (1, .int 3037000500)] [4, 0, 1, 2]) 2 =
    some (.int (BitVec.ofInt 64 (-9223372036709301616)), 4) := by decide +kernel
theorem test_div : (nextOf (step (bench [(0, .int (BitVec.ofInt 64 (-7))), (1, .int 2)] [5, 0, 1, 2]))).map
    (fun t => (t.readReg 2, t.rem)) = some (.int (BitVec.ofInt 64 (-3)), 0xFFFFFFFFFFFFFFFF) := by decide +kernel
theorem test_div_by_zero_pointer : faultOf (step (bench [(0, .int 5), (1, .ptr 0)] [5, 0, 1, 2])) =
    some (.divisionByZero 0) := by decide +kernel

theorem test_jmp : stepPc (bench [(3, .int (BitVec.ofInt 64 (-1)))] [6, 3]) = some 18446744073709551615 := by
  decide +kernel
theorem test_jumpForward_greatest :
    stepPc (bench [(3, .ptr 18446744073709551613)] [7, 3]) = some 18446744073709551615 := by decide +kernel
theorem test_jumpForward_past_top :
    faultOf (step (bench [(3, .ptr 18446744073709551614)] [7, 3])) = some (.jumpOutOfRange 0) := by decide +kernel
theorem test_jumpBackward_to_itself : stepPc (bench [(3, .int 2)] [8, 3]) = some 0 := by decide +kernel
theorem test_jumpBackward_below_zero :
    faultOf (step (bench [(3, .int 3)] [8, 3])) = some (.jumpOutOfRange 0) := by decide +kernel

theorem test_cmp_pointer_is_negative :
    (nextOf (step (bench [(4, .ptr 18446744073709551615)] [9, 4, 5]))).map State.flag = some .less := by decide +kernel
theorem test_cmp_greater : (nextOf (step (bench [(4, .int 1)] [9, 4, 5]))).map State.flag = some .greater := by
  decide +kernel

/-- The pc after a conditional jump of opcode `op` at each flag value (95_test_vectors.md section 2.10). -/
def jumpRow (op : Byte) : List (Option Word) :=
  [Flag.equal, .greater, .less, .notEqual, .none].map fun f => stepPc (bench [(0, .int 7)] [op, 0] 0 f)

theorem test_jeq : jumpRow 10 = [some 7, some 2, some 2, some 2, some 2] := by decide +kernel
theorem test_jne : jumpRow 11 = [some 2, some 7, some 7, some 7, some 2] := by decide +kernel
theorem test_jgt : jumpRow 12 = [some 2, some 7, some 2, some 2, some 2] := by decide +kernel
theorem test_jlt : jumpRow 13 = [some 2, some 2, some 7, some 2, some 2] := by decide +kernel
theorem test_jumpGreaterOrEqual : jumpRow 14 = [some 7, some 7, some 2, some 2, some 2] := by decide +kernel
theorem test_jumpLessOrEqual : jumpRow 15 = [some 7, some 2, some 7, some 2, some 2] := by decide +kernel

/-- Scenario D. -/
theorem test_write : (nextOf (step (bench [(1, .int 1)] [16, 1, 1, 0, 0, 0, 0, 0, 0, 0, 2]))).map
    (fun t => (accessBlockLength t 1, accessSlot t 1 0, accessSlot t 1 1, t.readReg 1, t.pc)) =
    some (some 2, some (.int 0), some (.int 2), .ptr 1, 11) := by decide +kernel
theorem test_write_greatest_index : (nextOf (step (bench [(1, .int 1), (2, .int (BitVec.ofInt 64 (-1)))]
    [16, 1, 2, 0, 0, 0, 0, 0, 0, 0, 1]))).map
    (fun t => (accessBlockLength t 1, accessSlot t 1 18446744073709551615, accessSlot t 1 7)) =
    some (some 18446744073709551616, some (.int 1), some (.int 0)) := by decide +kernel
theorem test_writePointer_grows : (nextOf (step (bench [(1, .ptr 5), (2, .int 4)]
    [17, 1, 2, 0, 0, 0, 0, 0, 0, 0, 77] 0 .none [(5, ⟨2, [(0, .int 10), (1, .int 11)]⟩)]))).map
    (fun t => (accessBlockLength t 5, accessSlot t 5 1, accessSlot t 5 3, accessSlot t 5 4)) =
    some (some 5, some (.int 11), some (.int 0), some (.ptr 77)) := by decide +kernel
theorem test_dereference_keeps_tag : (nextOf (step (bench [(1, .int 5), (2, .int 2)] [19, 1, 2, 3] 0 .none block5))).map
    (fun t => (t.readReg 3, t.readReg 1, t.pc)) = some (.ptr 12, .ptr 5, 4) := by decide +kernel
theorem test_dereference_value_wins :
    stepReg (bench [(1, .int 5), (2, .int 1)] [19, 1, 2, 1] 0 .none block5) 1 = some (.int 11, 4) := by decide +kernel

/-- 95_test_vectors.md section 2.5, last row: DecodeError comes before DivisionByZero. -/
theorem test_decodeError_before_division : (cycle (bench [] [5, 0, 1])).2 = .fault (.decodeError 0 .div) := by
  decide +kernel

/-- Program P6, its second and third call: an append cures a DecodeError. -/
theorem test_append_cures : ((appendAndRunOneCycle [0, 0, 0, 1, 244] (bench [] [1, 0, 0, 0, 0])).map
    fun p => (p.1.readReg 0, p.1.pc, p.2)) = some (.int 500, 10, .continues) := by decide +kernel

/-- Program P4 to its end. -/
theorem test_run_P4 : ((runToCompletion 9 (bench [] [18, 9, 0, 0, 0, 0, 0, 0, 0, 13, 6, 9, 0, 255])).map
    fun p => (p.1.pc, p.2)) = some (14, .halt (.unknownOpcode 13 255)) := by decide +kernel

/-- The harness: a table word placed at the pc after reset is fetched and run. -/
theorem test_withFetchWord : stepReg (State.reset.withFetchWord 32 0x02010002) 2 = some (.int 0, 4) := by decide +kernel
theorem test_withFetchWord_short : stepPc (State.reset.withFetchWord 8 0x01) = some 10 := by decide +kernel

/-! ### Witnesses: the hypotheses of each statement can be met, with the clauses at boundary values -/

/-- A state with a heap, a compared flag and an instruction to run. -/
def sample : State := bench [(1, .int 5), (2, .int 3)] [16, 1, 2, 0, 0, 0, 0, 0, 0, 0, 9] 0 .less block5

theorem witness_StepKeepsTheInvariant : sample.wf ∧ ∃ t, step sample = .next t :=
  ⟨by decide +kernel, next_exists (by decide +kernel)⟩

theorem witness_ReachableStatesMeetTheInvariant : ∃ s, Reachable s ∧ s.pc = 3 ∧ s.flag = .equal := by
  refine ⟨_, .cycle (.append [9, 4, 4] .reset (t := bench [] [9, 4, 4]) ?_), ?_, ?_⟩
  · rfl
  all_goals decide +kernel

theorem witness_DecodeOfEncodeIsTheInstruction : (Instr.illegal 20).wf = true ∧ (Instr.load 255 0).wf = true := by decide

theorem witness_DecodedBytesAreTheEncoding : decode [0, 7] = .instr .halt [7] := by decide +kernel

theorem witness_TruncatedExactlyWhenShort :
    decode [16, 1, 1, 0, 0, 0, 0, 0, 0, 0] = .truncated .write ∧ [(6 : Byte)].length < Operation.jmp.length := by
  decide +kernel

theorem witness_ImmediateFieldsDecode :
    decode [18, 0, 255, 255, 255, 255, 255, 255, 255, 255] = .instr (.loadPointer 0 0xFFFFFFFFFFFFFFFF) [] ∧
      be64Bytes 0xFF = be64Bytes 255 := by decide +kernel

theorem witness_ImmediateTokensRoundTrip :
    (0x7FFFFFFFFFFFFFFF : Word).toNat < 2 ^ 63 ∧
      readImm (Token.emit (.positiveInteger 0x7FFFFFFFFFFFFFFF)) = some (0x7FFFFFFFFFFFFFFF, []) ∧
      readImm (Token.emit (.negativeInteger 0x7FFFFFFFFFFFFFFF)) = some (0xFFFFFFFFFFFFFFFF, []) := by decide +kernel

theorem witness_RoundTripFailsFromTwoToThe63 : 2 ^ 63 ≤ (0x8000000000000000 : Word).toNat := by decide

theorem witness_OpcodeDecodeAndEncodeAgree :
    20 ≤ (20 : Byte).toNat ∧ (19 : Byte).toNat ≤ 19 ∧ Operation.halt ≠ .illegal ∧ encodeOp .dereference = some 19 := by
  decide +kernel

theorem witness_ShapesAndLengths : decode [9, 4, 5, 0] = .instr (.cmp 4 5) [0] := by decide +kernel

theorem witness_EncoderChecksTheShape :
    encodeTokens .jmp [.register 1] = .ok [6, 1] ∧ [Token.register 1][0]? = some (.register 1) ∧
      Operation.jmp.shape[0]? = some .reg := ⟨rfl, rfl, rfl⟩

theorem witness_EncoderAndDecoderAgree :
    encodeTokens .write [.register 1, .register 2, .negativeInteger 5] =
        .ok [16, 1, 2, 128, 0, 0, 0, 0, 0, 0, 5] ∧
      immediateOf [.register 1, .register 2, .negativeInteger 5] = some (.negativeInteger 5) ∧
      (5 : Word).toNat < 2 ^ 63 ∧ FieldKind.simm ∈ Operation.write.shape ∧
      encodeTokens .loadPointer [.register 9, .positiveInteger 13] = .ok [18, 9, 0, 0, 0, 0, 0, 0, 0, 13] ∧
      FieldKind.uimm ∈ Operation.loadPointer.shape := ⟨rfl, rfl, by decide, by decide, rfl, by decide⟩

theorem witness_CoercionsGiveOnePattern :
    0 ≤ (Value.int 0).asS ∧ (0x7FFFFFFFFFFFFFFF : Word).toNat < 2 ^ 63 ∧ 2 ^ 63 ≤ (0x8000000000000000 : Word).toNat := by
  decide

theorem witness_StepRunsTheDecodedInstruction :
    decode (sample.mem.program.drop sample.pc.toNat) = .instr (.write 1 2 9) [] := by decide +kernel

theorem witness_CycleFollowsItsSteps :
    State.reset.mem.program.length ≤ State.reset.pc.toNat ∧
      opcodeAt (bench [] [6]) = some 6 ∧ (0 : Nat) + (decodeOp 6).length > [(6 : Byte)].length ∧
      opcodeAt (bench [] [6, 1]) = some 6 ∧ (0 : Nat) + (decodeOp 6).length ≤ [(6 : Byte), 1].length := by
  decide +kernel

/-- One state for each fault of the list, and one with none. -/
theorem witness_StepFaultsExactlyAsListed :
    faultOf (step (bench [] [1])) = some (.decodeError 0 .load) ∧
      faultOf (step (bench [] [5, 0, 1, 2])) = some (.divisionByZero 0) ∧
      faultOf (step (bench [(1, .int 6)] [19, 1, 2, 3] 0 .none block5)) = some (.heapAccessOutOfRange 0 6 0) ∧
      faultOf (step (bench [(1, .int 5), (2, .int 3)] [19, 1, 2, 3] 0 .none block5)) =
        some (.heapAccessOutOfRange 0 5 3) ∧
      faultOf (step (bench [(3, .int 3)] [8, 3])) = some (.jumpOutOfRange 0) ∧
      (nextOf (step sample)).isSome = true := by decide +kernel

theorem witness_NoFaultCause : ¬∃ f, FaultCause (bench [] [0]) f := by
  have hf : ∀ i, Fetched (bench [] [0]) i → i = .halt := by
    rintro i ⟨rest, h⟩
    have h0 : decode ((bench [] [0]).mem.program.drop (bench [] [0]).pc.toNat) = .instr .halt [] := by decide +kernel
    exact (Decoded.instr.inj (h.symm.trans h0)).1
  rintro ⟨f, ⟨b, hb, hl, -⟩ | ⟨_, _, _, h, -⟩ | ⟨_, _, _, _, _, h, -⟩ | ⟨_, h, -⟩ | ⟨_, h, -⟩⟩
  · have h0 : opcodeAt (bench [] [0]) = some 0 := by decide +kernel
    obtain rfl := Option.some.inj (h0.symm.trans hb)
    revert hl; decide +kernel
  all_goals exact absurd (hf _ h) (by simp)

theorem witness_FaultsChangeNothingAndRecur : (cycle (bench [] [5, 0, 1, 2])).2 = .fault (.divisionByZero 0) := by
  decide +kernel

theorem witness_AppendCuresOnlyDecodeError :
    (cycle (bench [] [5, 0, 1, 2])).2 = .fault (.divisionByZero 0) ∧
      append [0] (bench [] [5, 0, 1, 2]) = some (bench [] [5, 0, 1, 2, 0]) := ⟨by decide +kernel, by rfl⟩

theorem witness_AppendCompletesATruncatedInstruction :
    (cycle (bench [] [6])).2 = .fault (.decodeError 0 .jmp) ∧ append [1] (bench [] [6]) = some (bench [] [6, 1]) ∧
      (bench [] [6]).pc.toNat + Operation.jmp.length ≤ (bench [] [6, 1]).mem.program.length :=
  ⟨by decide +kernel, by rfl, by decide +kernel⟩

theorem witness_HaltReasonsAreToldApart :
    (cycle (bench [] [20])).2 = .halt (.unknownOpcode 0 20) ∧ (cycle (bench [] [0])).2 = .halt .haltInstruction ∧
      (cycle State.reset).2 = .halt .endOfProgram ∧ (cycle sample).2 = .continues := by decide +kernel

theorem witness_PcAfterEveryCycle : sample.mem.wf ∧ Fetched sample (.write 1 2 9) ∧ (∃ t, step sample = .next t) ∧
    (bench [] [6]).mem.wf ∧ (cycle (bench [] [6])).2 = .fault (.decodeError 0 .jmp) ∧
    State.reset.mem.program.length ≤ State.reset.pc.toNat :=
  ⟨by decide +kernel, ⟨[], by decide +kernel⟩, next_exists (by decide +kernel), by decide +kernel, by decide +kernel,
    by decide +kernel⟩

theorem witness_SequentialAdvanceNeverWraps :
    sample.mem.program.length ≤ Config.progMax ∧ Fetched sample (.write 1 2 9) :=
  ⟨by decide +kernel, [], by decide +kernel⟩

theorem witness_ProgramGrowsOnlyByAppend : append [0] State.reset = some (bench [] [0]) := by rfl

theorem witness_HeapOnlyGrows :
    accessBlockLength sample 5 = some 3 ∧ accessBlockLength (bench [(1, .ptr 7)] []) 7 = none ∧
      (nextOf (exec (.write 1 0 9) (bench [(1, .ptr 7)] []))).bind (accessBlockLength · 7) = some 1 ∧
      (bench [(1, .ptr 7)] []).readReg 1 = .ptr 7 := by decide +kernel

theorem witness_OnlyCmpWritesTheFlag :
    (∃ t, exec .halt sample = .next t) ∧ Instr.jne 0 ∈ [Instr.jeq 0, .jne 0, .jgt 0, .jlt 0] :=
  ⟨next_exists (by decide +kernel), by decide⟩

theorem witness_OnlyDivWritesTheRemainder : ∃ t, exec (.add 0 1 2) sample = .next t := next_exists (by decide +kernel)

theorem witness_NothingReadsTheRemainder :
    (∃ t, step sample = .next t) ∧ step (bench [] [6]) = .fault (.decodeError 0 .jmp) :=
  ⟨next_exists (by decide +kernel), eq_fault_of_faultOf (by decide +kernel)⟩

theorem witness_RegistersAreWrittenAsTabulated :
    (∃ t, exec (.load 1 2) sample = .next t) ∧ (∃ t, exec (.loadPointer 1 2) sample = .next t) ∧
      (∃ t, exec (.div 1 2 3) sample = .next t) ∧ (∃ t, exec (.writePointer 1 2 3) sample = .next t) ∧
      (∃ t, exec (.dereference 1 0 3) sample = .next t) :=
  ⟨next_exists (by decide +kernel), next_exists (by decide +kernel), next_exists (by decide +kernel),
    next_exists (by decide +kernel), next_exists (by decide +kernel)⟩

theorem witness_HaltAdvancesAndSignals : opcodeAt (bench [] [0]) = some 0 := by decide +kernel

theorem witness_IllegalIsANormalHalt : 20 ≤ (20 : Byte).toNat ∧ opcodeAt (bench [] [20]) = some 20 := by decide +kernel

theorem witness_LoadWritesSignAndMagnitude :
    Fetched (bench [] [1, 3, 0, 0, 0, 0, 0, 0, 0, 9]) (.load 3 9) ∧
      opcodeAt (bench [] [1, 3, 0, 0, 0, 0, 0, 0, 0]) = some 1 ∧
      (bench [] [1, 3, 0, 0, 0, 0, 0, 0, 0]).mem.program.length <
        (bench [] [1, 3, 0, 0, 0, 0, 0, 0, 0]).pc.toNat + 10 ∧
      (∃ t, exec (.load 3 0x8000000000000000) sample = .next t) ∧
      (∃ t, exec (.load 3 0xFFFFFFFFFFFFFFFF) sample = .next t) ∧ 2 ^ 63 ≤ (0x8000000000000000 : Word).toNat ∧
      (∃ t, exec (.load 0 (be64 0 0 0 0 0 0 1 244)) State.reset = .next t) :=
  ⟨⟨[], by decide +kernel⟩, by decide +kernel, by decide +kernel, next_exists (by decide +kernel),
    next_exists (by decide +kernel), by decide, next_exists (by decide +kernel)⟩

theorem witness_DivWritesQuotientAndRemainder : (sample.readReg 1).asS ≠ 0 := by decide +kernel

theorem witness_DivFaultsExactlyOnZero :
    (bench [(1, .ptr 0)] []).readReg 1 = .ptr 0 ∧ (bench [(1, .ptr 0)] []).readReg 0 = .int 0 := by decide +kernel

theorem witness_JumpForwardAddsOrFaults :
    (bench [(3, .ptr 18446744073709551613)] []).pc.toNat + 2 +
        ((bench [(3, .ptr 18446744073709551613)] []).readReg 3).asU < 2 ^ 64 ∧
      2 ^ 64 ≤ (bench [(3, .ptr 18446744073709551614)] []).pc.toNat + 2 +
        ((bench [(3, .ptr 18446744073709551614)] []).readReg 3).asU := by decide +kernel

theorem witness_JumpBackwardSubtractsOrFaults :
    ((bench [(3, .int 2)] []).readReg 3).asU ≤ (bench [(3, .int 2)] []).pc.toNat + 2 ∧
      (bench [(3, .int 3)] []).pc.toNat + 2 < ((bench [(3, .int 3)] []).readReg 3).asU := by decide +kernel

theorem witness_JeqIsTakenOnEqual :
    opcodeAt (bench [] [10]) = some 10 ∧ (bench [] [10]).mem.program.length < (bench [] [10]).pc.toNat + 2 ∧
      (bench [(0, .int 7)] [10, 0] 0 .equal).flag = .equal ∧
      (bench [(0, .int 7)] [10, 0] 0 .equal).readReg 0 = .int 7 ∧
      (nextOf (exec (.jeq 0) (bench [(0, .int 7)] [10, 0] 0 .equal))).isSome = true := by decide +kernel

/-- The taken and the not-taken clause of every conditional jump are met. -/
theorem witness_ConditionalJumps :
    (bench [] [] 0 .greater).flag = .greater ∧ (bench [] [] 0 .less).flag = .less ∧
      (bench [] [] 0 .equal).flag = .equal ∧ (bench [] [] 0 .notEqual).flag = .notEqual := by decide +kernel

theorem witness_JumpsAfterCmpAreTheSignedRelations : ∃ t, exec (.cmp 1 2) sample = .next t :=
  next_exists (by decide +kernel)

/-- A write that overwrites (index below the length), one at the length, one that leaves a gap of grown slots. -/
theorem witness_WritesStoreAndRetag :
    sample.mem.wf ∧ (accessBlockLength sample (sample.readReg 1).asU).getD 0 ≤ 3 ∧ (3 : Nat) < 4 ∧ (2 : Nat) ≠ 3 ∧
      2 < (accessBlockLength sample (sample.readReg 1).asU).getD 0 ∧ (6 : Nat) ≠ (sample.readReg 1).asU := by
  decide +kernel

theorem witness_DereferenceCopiesTheSlot :
    accessBlockLength sample (sample.readReg 1).asU = some 3 ∧ (sample.readReg 0).asU < 3 ∧ (1 : RegIdx) ≠ 3 := by
  decide +kernel

theorem witness_DereferenceFaultsWithoutASlot :
    accessBlockLength sample (sample.readReg 2).asU = none ∧
      accessBlockLength sample (sample.readReg 1).asU = some 3 ∧ 3 ≤ (sample.readReg 2).asU := by decide +kernel

theorem witness_WriteThenDereferenceReturnsTheValue :
    (∃ t, exec (.write 1 2 9) sample = .next t) ∧ ∃ t, exec (.writePointer 1 1 9) sample = .next t :=
  ⟨next_exists (by decide +kernel), next_exists (by decide +kernel)⟩

theorem witness_FirstWriteMakesAZeroFilledBlock :
    accessBlockLength (bench [(1, .int 6), (2, .int 2)] []) 6 = none ∧
      ((bench [(1, .int 6), (2, .int 2)] []).readReg 1).asU = 6 ∧
      1 < ((bench [(1, .int 6), (2, .int 2)] []).readReg 2).asU ∧
      (∃ t, exec (.write 1 2 9) (bench [(1, .int 6), (2, .int 2)] []) = .next t) :=
  ⟨by decide +kernel, by decide +kernel, by decide +kernel, next_exists (by decide +kernel)⟩

theorem witness_HeapReadsAfterAWrite :
    Memory.wf ⟨[], block5⟩ ∧ Memory.heapRead ⟨[], block5⟩ 5 2 = some (.ptr 12) ∧
      Memory.heapRead ⟨[], block5⟩ 5 3 = none ∧ ¬((5 : Nat) = 5 ∧ (3 : Nat) = 4) := by decide +kernel

theorem witness_WritesToDifferentBlocksCommute :
    Memory.wf ⟨[], block5⟩ ∧ (18446744073709551615 : Nat) < 2 ^ 64 ∧ (5 : Nat) ≠ 18446744073709551615 := by decide +kernel

theorem witness_CanonicalMemoriesThatReadAlikeAreEqual :
    Memory.wf (Memory.heapWrite ⟨[], block5⟩ 5 1 (.int 11)) ∧
      Memory.heapWrite ⟨[], block5⟩ 5 1 (.int 11) = ⟨[], block5⟩ := by decide +kernel

theorem witness_RunStopsAtTheFirstStop :
    ((runToCompletion 2 (bench [] [9, 4, 4])).map fun p => (p.1.pc, p.1.flag, p.2)) =
        some (3, .equal, .halt .endOfProgram) ∧
      (cycle State.reset).2 = .halt .endOfProgram ∧ Report.halt .endOfProgram ≠ .continues := by decide +kernel

theorem witness_HaltIsNotLatched :
    (bench [] [0]).mem.wf ∧ cycle (bench [] [0]) = (bench [] [0] 1, .halt .haltInstruction) ∧
      (bench [] [0]).pc.toNat + 1 = (bench [] [0]).mem.program.length ∧
      append [9, 4, 4] (bench [] [0] 1) = some (bench [] [0, 9, 4, 4] 1) ∧
      decode [9, 4, 4] = .instr (.cmp 4 4) [] :=
  ⟨by decide +kernel, by rfl, by decide +kernel, by rfl, by decide +kernel⟩

end Sys2Proof.Tests
end

section
/-! SUPPORT. The immediate fields: `be64_bytes` byte by byte, the numbers `sm_decode` and `m OR 2^63` stand for, and
what the checked encoder accepts in the signed field of Load and of Write. -/

namespace Sys2Proof

/-! ### Byte order (R82) -/

theorem be64Bytes_be64 (b0 b1 b2 b3 b4 b5 b6 b7 : Byte) :
    be64Bytes (be64 b0 b1 b2 b3 b4 b5 b6 b7) = [b0, b1, b2, b3, b4, b5, b6, b7] := by
  have hread : readImm [b0, b1, b2, b3, b4, b5, b6, b7] = some (be64 b0 b1 b2 b3 b4 b5 b6 b7, []) := rfl
  simpa using (readImm_eq_some hread).symm

theorem be64Bytes_eq_map_range (w : Word) : be64Bytes w = (List.range 8).map fun i => wordByte w (7 - i) := rfl

theorem be64Bytes_getElem?_toNat (w : Word) (i : Nat) :
    (be64Bytes w)[i]?.map BitVec.toNat =
      if i < 8 then some (w.toNat / 2 ^ (8 * (7 - i)) % 2 ^ 8) else none := by
  rw [be64Bytes_eq_map_range, List.getElem?_map]
  split
  · next h => simp [List.getElem?_range h, wordByte_toNat]
  · next h => simp [Nat.not_lt.mp h]

/-! ### Sign and magnitude (R83, R84) -/

theorem getLsbD_63 (w : Word) : w.getLsbD 63 = decide (2 ^ 63 ≤ w.toNat) := w.msb_eq_decide

/-- The number a signed field stands for, by the magnitude of its word. -/
theorem smDecode_eq (w : Word) :
    smDecode w = if w.toNat < 2 ^ 63 then (w.toNat : Int) else -((w.toNat : Int) - 2 ^ 63) := by
  have hmag : ((w.extractLsb' 0 63).toNat : Int) = (w.toNat : Int) % 2 ^ 63 := by simp
  have hlt := w.isLt
  simp only [smDecode, getLsbD_63, hmag, decide_eq_true_eq]
  split <;> split <;> omega

theorem smDecode_of_lt {w : Word} (h : w.toNat < 2 ^ 63) : smDecode w = w.toNat := by
  rw [smDecode_eq, if_pos h]

theorem smDecode_of_ge {w : Word} (h : 2 ^ 63 ≤ w.toNat) : smDecode w = -((w.toNat : Int) - 2 ^ 63) := by
  rw [smDecode_eq, if_neg (Nat.not_lt.mpr h)]

/-- OR with 2^63 is addition while bit 63 is clear. -/
theorem two_pow_63_or_of_lt {n : Nat} (h : n < 2 ^ 63) : 2 ^ 63 ||| n = n + 2 ^ 63 := by
  have hadd : 2 ^ 63 * 1 + n = 2 ^ 63 * 1 ||| n := Nat.two_pow_add_eq_or_of_lt h 1
  rw [Nat.mul_one] at hadd
  rw [← hadd, Nat.add_comm]

theorem withSignBit_toNat_or (m : Word) : (withSignBit m).toNat = 2 ^ 63 ||| m.toNat := by
  simp [withSignBit, Nat.or_comm]

theorem withSignBit_toNat_of_lt {m : Word} (h : m.toNat < 2 ^ 63) : (withSignBit m).toNat = m.toNat + 2 ^ 63 := by
  rw [withSignBit_toNat_or, two_pow_63_or_of_lt h]

/-- From magnitude 2^63 on, bit 63 is set already. -/
theorem withSignBit_of_ge {m : Word} (h : 2 ^ 63 ≤ m.toNat) : withSignBit m = m := by
  have hlt := m.isLt
  have hsplit : m.toNat = 2 ^ 63 ||| (m.toNat - 2 ^ 63) := by
    rw [two_pow_63_or_of_lt (by omega)]
    omega
  apply BitVec.eq_of_toNat_eq
  rw [withSignBit_toNat_or, hsplit, ← Nat.or_assoc, Nat.or_self]

theorem smDecode_withSignBit {m : Word} (h : m.toNat < 2 ^ 63) : smDecode (withSignBit m) = -(m.toNat : Int) := by
  have hw := withSignBit_toNat_of_lt h
  rw [smDecode_of_ge (by omega)]
  omega

/-! ### Immediate tokens (R84, R91, R92) -/

@[simp] theorem Token.emit_register (i : RegIdx) : (Token.register i).emit = [i] := rfl
@[simp] theorem Token.emit_positiveInteger (m : Word) : (Token.positiveInteger m).emit = be64Bytes m := rfl
@[simp] theorem Token.emit_negativeInteger (m : Word) :
    (Token.negativeInteger m).emit = be64Bytes (withSignBit m) := rfl

@[simp] theorem Token.fits_register_reg (i : RegIdx) : (Token.register i).fits .reg = true := rfl

/-- The checked encoder on tokens that fit a defined operation's shape. -/
theorem encodeTokens_of_fitsShape {op : Operation} {b : Byte} {toks : List Token} (hop : encodeOp op = some b)
    (hfit : fitsShape toks op.shape = true) : encodeTokens op toks = .ok (b :: toks.flatMap Token.emit) := by
  simp [encodeTokens, encRaw, hop, hfit]

theorem encodeTokens_load {t : Token} (h : t.fits .simm = true) (rd : RegIdx) :
    encodeTokens .load [.register rd, t] = .ok ([1, rd] ++ t.emit) := by
  have hfit : fitsShape [.register rd, t] Operation.load.shape = true := by simp [Operation.shape, fitsShape, h]
  simp [encodeTokens_of_fitsShape (show encodeOp .load = some 1 from rfl) hfit]

theorem encodeTokens_write {t : Token} (h : t.fits .simm = true) (rb ro : RegIdx) :
    encodeTokens .write [.register rb, .register ro, t] = .ok ([16, rb, ro] ++ t.emit) := by
  have hfit : fitsShape [.register rb, .register ro, t] Operation.write.shape = true := by
    simp [Operation.shape, fitsShape, h]
  simp [encodeTokens_of_fitsShape (show encodeOp .write = some 16 from rfl) hfit]

end Sys2Proof
end

section
/-! The obligations about byte order and immediate tokens (spec/30_encoding.md sections 2 and 6). -/

namespace Sys2Proof

/-- Settles O10: the eight bytes read as an immediate are the bytes of the word they give, and conversely. -/
theorem bigEndianAssemblyAndItsInverse : Obligations.BigEndianAssemblyAndItsInverse := by
  refine ⟨fun b0 b1 b2 b3 b4 b5 b6 b7 => ⟨?sum, ?bytes⟩, fun w => ?inverse, ?example500⟩
  case sum => exact be64_toNat b0 b1 b2 b3 b4 b5 b6 b7
  case bytes => exact be64Bytes_be64 b0 b1 b2 b3 b4 b5 b6 b7
  case inverse => exact ⟨_, _, _, _, _, _, _, _, rfl, be64_wordByte w, be64Bytes_getElem?_toNat w⟩
  case example500 => exact ⟨by simp [be64_toNat], rfl⟩

/-- Settles O12: a field reads back the word that was emitted, and `m OR 2^63` has the magnitude `m` while `m` is
below 2^63. -/
theorem immediateTokensRoundTrip : Obligations.ImmediateTokensRoundTrip := by
  refine ⟨fun m => ⟨rfl, withSignBit m, rfl, ?signBit⟩, fun m hm w rest hread => ?positive,
    fun m hm w rest hread => ?negative, fun p w rest hread => ?unsigned, fun tok rest => ?reads⟩
  case signBit =>
    split
    · next h => exact withSignBit_toNat_of_lt h
    · next h => rw [withSignBit_of_ge (Nat.not_lt.mp h)]
  case positive =>
    obtain rfl : m = w := by simpa using hread
    exact smDecode_of_lt hm
  case negative =>
    obtain rfl : withSignBit m = w := by simpa using hread
    exact smDecode_withSignBit hm
  case unsigned =>
    obtain rfl : p = w := by simpa using hread
    rfl
  case reads =>
    match tok with
    | .register i => exact .inl ⟨i, rfl⟩
    | .positiveInteger m => exact .inr ⟨m, readImm_be64Bytes m rest⟩
    | .negativeInteger m => exact .inr ⟨withSignBit m, readImm_be64Bytes (withSignBit m) rest⟩

/-- Settles O13: bit 63 of the magnitude is the sign bit of the field, so setting it changes nothing and reading it
back gives a number that is not positive. -/
theorem roundTripFailsFromTwoToThe63 : Obligations.RoundTripFailsFromTwoToThe63 := by
  intro m hm
  have hemit : Token.emit (.negativeInteger m) = be64Bytes m := by simp [withSignBit_of_ge hm]
  have hdec := smDecode_of_ge hm
  refine ⟨hemit, rfl, hdec, by omega, by omega, by omega, fun rd => ⟨encodeTokens_load rfl rd, ?_, fun ro =>
    ⟨encodeTokens_write rfl rd ro, ?_⟩⟩⟩
  · rw [encodeTokens_load rfl, hemit]
  · rw [encodeTokens_write rfl, hemit]

end Sys2Proof
end

section
/-! SUPPORT. What a write of one register leaves alone, what a cycle does with the instruction at the pc, whole or cut
short, and what Load leaves in its destination. -/

namespace Sys2Proof.Machine

open Sys2Proof.Spec

variable {s t : State} {i : Instr}

/-! ### Integer values -/

theorem isInt_ofInt (n : Int) : IsInt (Value.ofInt n) (toS64 n) := ⟨_, rfl, toInt_ofInt_eq_toS64 n⟩

theorem eq_of_isInt_of_isInt {v : Value} {m n : Int} (hm : IsInt v m) (hn : IsInt v n) : m = n := by
  obtain ⟨w, rfl, rfl⟩ := hm
  obtain ⟨w', hv, rfl⟩ := hn
  cases hv
  rfl

/-- Sign and magnitude are symmetric: the least s64 has no word. -/
theorem smDecode_bounds (w : Word) : -(2 ^ 63 - 1) ≤ smDecode w ∧ smDecode w ≤ 2 ^ 63 - 1 := by
  have hlt := w.isLt
  rw [smDecode_eq]
  split <;> omega

/-- So no immediate is wrapped on its way into a value. -/
theorem isInt_ofInt_smDecode (w : Word) : IsInt (Value.ofInt (smDecode w)) (smDecode w) := by
  obtain ⟨hlo, hhi⟩ := smDecode_bounds w
  have hself : toS64 (smDecode w) = smDecode w := toS64_of_range (by omega) (by omega)
  simpa only [hself] using isInt_ofInt (smDecode w)

/-! ### Frames -/

theorem heapSame_of_mem_eq (h : t.mem = s.mem) : HeapSame s t := by
  simp [HeapSame, accessBlockLength, accessSlot, h]

theorem onlyRegsAndPc_writeReg_advance (s : State) (rd : RegIdx) (v : Value) (n : Nat) :
    OnlyRegsAndPc [rd] s ((s.writeReg rd v).advance n) := by
  refine ⟨fun r hr => ?regs, ⟨rfl, rfl⟩, fun _ => rfl, heapSame_of_mem_eq rfl⟩
  case regs => exact s.readReg_writeReg_other (List.ne_of_not_mem_cons hr) v

/-! ### The cycle, by what stands at the pc -/

theorem step_of_fetched (h : Fetched s i) : step s = exec i s := by
  obtain ⟨rest, hd⟩ := h
  simp only [step, fetch, hd]

theorem haltSignal_of_fetched (h : Fetched s i) : haltSignal s = haltOf i s.pc := by
  obtain ⟨rest, hd⟩ := h
  simp only [haltSignal, fetch, hd]

theorem cycle_continues (h : Fetched s i) (hexec : exec i s = .next t) (hhalt : haltOf i s.pc = none) :
    cycle s = (t, .continues) := by
  rw [cycle_of_next ((step_of_fetched h).trans hexec), haltSignal_of_fetched h, hhalt]

theorem fetch_eq_truncated {b : Byte} (hop : opcodeAt s = some b)
    (hcut : s.mem.program.length < s.pc.toNat + (decodeOp b).length) : fetch s = .truncated (decodeOp b) := by
  obtain ⟨hpc, rfl⟩ := List.getElem?_eq_some_iff.mp hop
  rw [fetch, List.drop_eq_getElem_cons hpc, decode_cons, (decodeAs_eq_none_iff _ _ _).mpr]
  rw [List.length_drop]
  omega

/-- An instruction that the buffer's end cuts short is a DecodeError, and nothing changes (R122, R224). -/
theorem cycle_of_truncated {b : Byte} (hop : opcodeAt s = some b)
    (hcut : s.mem.program.length < s.pc.toNat + (decodeOp b).length) :
    cycle s = (s, .fault (.decodeError s.pc (decodeOp b))) := by
  apply cycle_of_fault
  simp only [step, fetch_eq_truncated hop hcut, raise]

/-! ### Load (R140) -/

theorem exec_load (rd : RegIdx) (w : Word) (s : State) :
    exec (.load rd w) s = .next ((s.writeReg rd (Value.ofInt (smDecode w))).advance 10) := rfl

theorem isInt_of_exec_load {rd : RegIdx} {w : Word} (h : exec (.load rd w) s = .next t) :
    IsInt (t.readReg rd) (smDecode w) := by
  cases h
  simpa using isInt_ofInt_smDecode w

end Sys2Proof.Machine
end

section
/-! The obligations about the immediate loads (spec/41_load_immediate.md). -/

namespace Sys2Proof

open Sys2Proof.Machine

/-- Settles O37: every clause about the loaded value comes from `IsInt (x[d]) (sm_decode w)`, which holds because
sign and magnitude stays within s64. -/
theorem loadWritesSignAndMagnitude : Obligations.LoadWritesSignAndMagnitude := by
  refine ⟨?bytes, fun s rd w => ?effect, fun s hop hcut => ?cutShort, fun s rd t h => ?negativeZero,
    fun s rd t h => ?allOnes, fun s rd w t h hmin => ?leastMissing, fun s rd t m hm h => ?fromTwoToThe63,
    fun t h => ?example500⟩
  case bytes => intros; rfl
  case effect =>
    exact ⟨_, exec_load rd w s, isInt_of_exec_load (exec_load rd w s), rfl, onlyRegsAndPc_writeReg_advance s rd _ 10,
      fun hf => cycle_continues hf (exec_load rd w s) rfl⟩
  case cutShort => exact congrArg Prod.snd (cycle_of_truncated hop hcut)
  case negativeZero =>
    have hzero : smDecode 0x8000000000000000 = 0 := by simp [smDecode_eq]
    exact hzero ▸ isInt_of_exec_load h
  case allOnes =>
    have hones : smDecode 0xFFFFFFFFFFFFFFFF = -(2 ^ 63 - 1) := by simp [smDecode_eq]
    exact hones ▸ isInt_of_exec_load h
  case leastMissing =>
    have hsm : smDecode w = -2 ^ 63 := eq_of_isInt_of_isInt (isInt_of_exec_load h) hmin
    have hlo := (smDecode_bounds w).1
    omega
  case fromTwoToThe63 => exact smDecode_of_ge hm ▸ isInt_of_exec_load h
  case example500 =>
    have hword : be64 0 0 0 0 0 0 1 244 = 500 := rfl
    have hsm : smDecode 500 = 500 := smDecode_of_lt (by decide)
    exact hsm ▸ hword ▸ isInt_of_exec_load h

end Sys2Proof
end

section
/-! SUPPORT. What an instruction can do, said once: the shapes of a next state and the causes of a fault. What it
leaves alone, and that it keeps the invariant, follow from the shape. -/

namespace Sys2Proof.Machine

open Sys2Proof.Spec

/-- The next states an instruction can leave, by what it writes beside the pc: nothing; one register; quotient and
remainder; the flag; a heap slot and the block-id register's tag; that tag and the slot's value. -/
inductive Effect (s : State) : Instr → State → Prop where
  | pcOnly {i : Instr} (hi : writtenRegs i = []) (p : Word) : Effect s i (s.setPc p)
  | oneReg {i : Instr} {rd : RegIdx} (hi : writtenRegs i = [rd]) (v : Value) (n : Nat) :
      Effect s i ((s.writeReg rd v).advance n)
  | div (a b d : RegIdx) (w : Word) (v : Value) : Effect s (.div a b d) (((s.setRem w).writeReg d v).advance 4)
  | cmp (a b : RegIdx) : Effect s (.cmp a b) ((s.setFlag (compareFlag (s.readReg a).asS (s.readReg b).asS)).advance 3)
  | store {i : Instr} {rb ro : RegIdx} {w : Word} (hi : i = .write rb ro w ∨ i = .writePointer rb ro w) (v : Value) :
      Effect s i ((retagBlockReg (s.heapWrite (blockId s rb) (slotIndex s ro) v) rb).advance 11)
  | dereference (rb ro rd : RegIdx) (v : Value) :
      Effect s (.dereference rb ro rd) (((retagBlockReg s rb).writeReg rd v).advance 4)

/-- The faults an instruction can end in, each with its cause (R222, R223, R225). -/
inductive ExecFault (s : State) : Instr → Fault → Prop where
  | divisionByZero {a b d : RegIdx} (h : (s.readReg b).asS = 0) : ExecFault s (.div a b d) (.divisionByZero s.pc)
  | noSlot {rb ro rd : RegIdx} (h : s.mem.heapRead (blockId s rb) (slotIndex s ro) = none) :
      ExecFault s (.dereference rb ro rd)
        (.heapAccessOutOfRange s.pc (BitVec.ofNat 64 (blockId s rb)) (BitVec.ofNat 64 (slotIndex s ro)))
  | pastTop {rt : RegIdx} (h : pcMax < relBase s + (s.readReg rt).asU) :
      ExecFault s (.jumpForward rt) (.jumpOutOfRange s.pc)
  | belowZero {rt : RegIdx} (h : relBase s < (s.readReg rt).asU) :
      ExecFault s (.jumpBackward rt) (.jumpOutOfRange s.pc)

variable {s t : State} {i : Instr} {f : Fault}

theorem effect_of_condJump {taken : Flag → Bool} {rt : RegIdx} (hi : writtenRegs i = [])
    (he : exec i s = condJump taken rt s) : ∃ t, exec i s = .next t ∧ Effect s i t := by
  rw [he, condJump_eq]
  split
  · exact ⟨_, rfl, .pcOnly hi _⟩
  · exact ⟨_, rfl, .pcOnly hi _⟩

/-- Every instruction completes with one of the effects or faults with one of the causes; none is refused. -/
theorem exec_outcome (i : Instr) (s : State) :
    (∃ t, exec i s = .next t ∧ Effect s i t) ∨ ∃ f, exec i s = .fault f ∧ ExecFault s i f := by
  cases i with
  | halt | illegal | jmp => exact .inl ⟨_, rfl, .pcOnly rfl _⟩
  | load | loadPointer | add | sub | mul => exact .inl ⟨_, rfl, .oneReg rfl _ _⟩
  | jeq | jne | jgt | jlt | jumpGreaterOrEqual | jumpLessOrEqual => exact .inl (effect_of_condJump rfl rfl)
  | cmp a b => exact .inl ⟨_, rfl, .cmp a b⟩
  | write => exact .inl ⟨_, rfl, .store (.inl rfl) _⟩
  | writePointer => exact .inl ⟨_, rfl, .store (.inr rfl) _⟩
  | div a b d =>
    rcases execDiv_cases a b d s with ⟨h, e⟩ | ⟨-, e⟩
    · exact .inr ⟨_, e, .divisionByZero h⟩
    · exact .inl ⟨_, e, .div a b d _ _⟩
  | jumpForward rt =>
    rcases execJumpForward_cases rt s with ⟨h, e⟩ | ⟨-, e⟩
    · exact .inr ⟨_, e, .pastTop h⟩
    · exact .inl ⟨_, e, .pcOnly rfl _⟩
  | jumpBackward rt =>
    rcases execJumpBackward_cases rt s with ⟨h, e⟩ | ⟨-, e⟩
    · exact .inr ⟨_, e, .belowZero h⟩
    · exact .inl ⟨_, e, .pcOnly rfl _⟩
  | dereference rb ro rd =>
    rcases execDereference_cases rb ro rd s with ⟨h, e⟩ | ⟨v, -, e⟩
    · exact .inr ⟨_, e, .noSlot h⟩
    · exact .inl ⟨_, e, .dereference rb ro rd v⟩

theorem effect_of_exec (h : exec i s = .next t) : Effect s i t := by
  rcases exec_outcome i s with ⟨t', ht, he⟩ | ⟨f, hf, -⟩
  · cases ht.symm.trans h; exact he
  · cases hf.symm.trans h

theorem exec_eq_fault_iff : exec i s = .fault f ↔ ExecFault s i f := by
  constructor
  · intro h
    rcases exec_outcome i s with ⟨t, ht, -⟩ | ⟨f', hf, he⟩
    · cases ht.symm.trans h
    · cases hf.symm.trans h; exact he
  · intro h
    cases h with
    | divisionByZero h => simp [exec, execDiv, h, raise]
    | noSlot h => simp [exec, execDereference, h, raise]
    | pastTop h => simp [exec, execJumpForward, h, raise]
    | belowZero h => simp [exec, execJumpBackward, h, raise]

/-! ### Frames -/

theorem exec_regs (h : exec i s = .next t) : RegsSameExcept (writtenRegs i) s t := by
  intro r hr
  cases effect_of_exec h with
  | pcOnly => rfl
  | oneReg hi v n => exact s.readReg_writeReg_other (List.ne_of_not_mem_cons (hi ▸ hr)) v
  | div a b d w v => exact (s.setRem w).readReg_writeReg_other (List.ne_of_not_mem_cons hr) v
  | cmp => rfl
  | store hi v =>
    rcases hi with rfl | rfl <;> exact readReg_retagBlockReg_other _ (List.ne_of_not_mem_cons hr)
  | dereference rb ro rd v =>
    have hrd : r ≠ rd := fun e => hr (e ▸ by simp [writtenRegs])
    exact ((retagBlockReg s rb).readReg_writeReg_other hrd v).trans
      (readReg_retagBlockReg_other s (List.ne_of_not_mem_cons hr))

theorem exec_flag (h : exec i s = .next t) (hi : ∀ a b, i ≠ .cmp a b) : t.flag = s.flag := by
  cases effect_of_exec h with
  | cmp a b => exact absurd rfl (hi a b)
  | _ => rfl

theorem exec_rem (h : exec i s = .next t) (hi : ∀ a b d, i ≠ .div a b d) : t.rem = s.rem := by
  cases effect_of_exec h with
  | div a b d => exact absurd rfl (hi a b d)
  | _ => rfl

theorem exec_program (h : exec i s = .next t) : t.mem.program = s.mem.program := by
  rcases exec_mem h with hm | ⟨_, _, _, _, -, hm⟩ <;> simp [hm]

/-! ### The invariant -/

theorem compareFlag_compared (m n : Int) : Compared (compareFlag m n) := by
  unfold compareFlag Compared
  split
  · exact .inl rfl
  · split
    · exact .inr (.inl rfl)
    · exact .inr (.inr rfl)

theorem ne_notEqual_of_compared {x : Flag} (h : Compared x) : x ≠ .notEqual := by
  rcases h with rfl | rfl | rfl <;> decide

theorem exec_keeps_flag_ne_notEqual (hs : s.flag ≠ .notEqual) (h : exec i s = .next t) : t.flag ≠ .notEqual := by
  cases effect_of_exec h with
  | cmp a b => exact ne_notEqual_of_compared (compareFlag_compared _ _)
  | _ => exact hs

theorem exec_keeps_mem_wf (hs : s.mem.wf) (h : exec i s = .next t) : t.mem.wf := by
  rcases exec_mem h with hm | ⟨rb, ro, _, v, -, hm⟩
  · exact hm ▸ hs
  · exact hm ▸ Memory.heapWrite_wf hs (blockId_lt s rb) (slotIndex_lt s ro) v

theorem exec_keeps_wf (hs : s.wf) (h : exec i s = .next t) : t.wf :=
  ⟨exec_keeps_mem_wf hs.1 h, exec_keeps_flag_ne_notEqual hs.2 h⟩

theorem step_keeps_wf (hs : s.wf) (h : step s = .next t) : t.wf := by
  rcases step_cases s with ⟨-, e⟩ | ⟨op, -, e⟩ | ⟨i, rest, -, e⟩
  · cases e.symm.trans h; exact hs
  · cases e.symm.trans h
  · exact exec_keeps_wf hs (e.symm.trans h)

/-- A cycle leaves the state as it was or moves to the step's next state. -/
theorem cycle_fst (s : State) : (cycle s).1 = s ∨ step s = .next (cycle s).1 := by
  cases h : step s with
  | next t => exact .inr (by rw [cycle_of_next h])
  | fault f => exact .inl (by rw [cycle_of_fault h])
  | refused r => exact .inl (by unfold cycle; rw [h])

theorem append_keeps_wf {bytes : List Byte} (hs : s.wf) (h : append bytes s = some t) : t.wf := by
  obtain ⟨hlen, rfl⟩ := append_eq_some.mp h
  exact ⟨Memory.program_append_wf hs.1 hlen, hs.2⟩

theorem reset_wf : State.reset.wf := ⟨Memory.reset_wf, by decide⟩

theorem Reachable.wf (h : Reachable s) : s.wf := by
  induction h with
  | reset => exact reset_wf
  | append bytes _ ha ih => exact append_keeps_wf ih ha
  | @cycle u _ ih =>
    rcases cycle_fst u with e | e
    · rw [e]; exact ih
    · exact step_keeps_wf ih e

end Sys2Proof.Machine
end

section
/-! The obligations about the invariant (spec/10_state.md). -/

namespace Sys2Proof

open Sys2Proof.Machine Sys2Proof.Spec

/-- Settles O3: an instruction leaves memory alone or makes one heap write, at an address below 2^64, and the flag is
kept or is a comparison's. -/
theorem stepKeepsTheInvariant : Obligations.StepKeepsTheInvariant := fun _ _ hs h => step_keeps_wf hs h

/-- Settles O4, by induction on how the state was reached. -/
theorem reachableStatesMeetTheInvariant : Obligations.ReachableStatesMeetTheInvariant := by
  intro s hr
  have hwf := hr.wf
  refine ⟨hwf, ?_⟩
  cases hf : s.flag with
  | none => exact .inl rfl
  | equal => exact .inr (.inl rfl)
  | greater => exact .inr (.inr (.inl rfl))
  | less => exact .inr (.inr (.inr rfl))
  | notEqual => exact absurd hf hwf.2

/-- Settles O1. -/
theorem resetLeavesTheTabulatedValues : Obligations.ResetLeavesTheTabulatedValues :=
  ⟨fun r => ⟨0, State.readReg_reset r, rfl⟩, rfl, rfl, rfl, rfl, fun _ => ⟨rfl, fun _ => rfl⟩⟩

/-- Settles O2: an empty heap and an empty program are canonical. -/
theorem resetSatisfiesTheInvariant : Obligations.ResetSatisfiesTheInvariant := reset_wf

end Sys2Proof
end

section
/-! SUPPORT. The decoder and `encode` are inverse to each other: decoding an encoding gives the instruction back, and
what was decoded is its encoding. -/

namespace Sys2Proof

variable {i : Instr} {b : Byte} {bs rest tail : List Byte}

/-! ### Decoding an encoding (R85, R93) -/

theorem decode_of_decodeAs (h : decodeAs (decodeOp b) b tail = some (i, rest)) :
    decode (b :: tail) = .instr i rest := by
  rw [decode_cons, h]

@[simp] theorem formatRI_be64Bytes (mk : RegIdx → Word → Instr) (a : RegIdx) (w : Word) (rest : List Byte) :
    formatRI mk (a :: (be64Bytes w ++ rest)) = some (mk a w, rest) := by
  simp [formatRI]

@[simp] theorem formatRRI_be64Bytes (mk : RegIdx → RegIdx → Word → Instr) (a c : RegIdx) (w : Word)
    (rest : List Byte) : formatRRI mk (a :: c :: (be64Bytes w ++ rest)) = some (mk a c w, rest) := by
  simp [formatRRI]

theorem decode_illegal (h : 20 ≤ b.toNat) (rest : List Byte) : decode (b :: rest) = .instr (.illegal b) rest := by
  rw [decode_cons, decodeOp_illegal b h]
  rfl

theorem decode_encode (h : i.wf = true) (rest : List Byte) : decode (encode i ++ rest) = .instr i rest := by
  cases i with
  | load rd w => exact decode_of_decodeAs (b := 1) (formatRI_be64Bytes .load rd w rest)
  | loadPointer rd w => exact decode_of_decodeAs (b := 18) (formatRI_be64Bytes .loadPointer rd w rest)
  | write rb ro w => exact decode_of_decodeAs (b := 16) (formatRRI_be64Bytes .write rb ro w rest)
  | writePointer rb ro w => exact decode_of_decodeAs (b := 17) (formatRRI_be64Bytes .writePointer rb ro w rest)
  | illegal b => exact decode_illegal (of_decide_eq_true h) rest
  | _ => rfl

/-! ### What was decoded is its encoding (R80, R97) -/

/-- The operand bytes of a defined operation, behind its opcode value, are the encoding of the instruction read. -/
theorem encode_of_decodeAs {op : Operation} (hop : encodeOp op = some b) (h : decodeAs op b bs = some (i, rest)) :
    i.wf = true ∧ b :: bs = encode i ++ rest := by
  cases op with
  | halt =>
    obtain ⟨rfl, rfl⟩ := formatN_eq_some h
    cases hop; exact ⟨rfl, rfl⟩
  | load | loadPointer =>
    obtain ⟨a, w, rfl, rfl⟩ := formatRI_eq_some h
    cases hop; exact ⟨rfl, rfl⟩
  | write | writePointer =>
    obtain ⟨a, c, w, rfl, rfl⟩ := formatRRI_eq_some h
    cases hop; exact ⟨rfl, rfl⟩
  | add | sub | mul | div | dereference =>
    obtain ⟨a, c, d, rfl, rfl⟩ := formatRRR_eq_some h
    cases hop; exact ⟨rfl, rfl⟩
  | cmp =>
    obtain ⟨a, c, rfl, rfl⟩ := formatRR_eq_some h
    cases hop; exact ⟨rfl, rfl⟩
  | jmp | jumpForward | jumpBackward | jeq | jne | jgt | jlt | jumpGreaterOrEqual | jumpLessOrEqual =>
    obtain ⟨a, rfl, rfl⟩ := formatR_eq_some h
    cases hop; exact ⟨rfl, rfl⟩
  | illegal => cases hop

theorem encode_of_decode (h : decode bs = .instr i rest) : i.wf = true ∧ bs = encode i ++ rest := by
  obtain ⟨b, tail, rfl, hd⟩ := decode_eq_instr h
  by_cases hill : decodeOp b = .illegal
  · rw [hill] at hd
    obtain ⟨rfl, rfl⟩ := formatN_eq_some hd
    exact ⟨decide_eq_true ((decodeOp_eq_illegal_iff b).mp hill), rfl⟩
  · exact encode_of_decodeAs (encodeOp_decodeOp b hill) hd

theorem decode_append (h : decode bs = .instr i rest) (more : List Byte) :
    decode (bs ++ more) = .instr i (rest ++ more) := by
  obtain ⟨hwf, rfl⟩ := encode_of_decode h
  rw [List.append_assoc]
  exact decode_encode hwf (rest ++ more)

/-! ### Operation and length of what was decoded (R88) -/

theorem encode_length (i : Instr) : (encode i).length = i.operation.length := by
  cases i <;> rfl

/-- The opcode byte of an encoding is its operation's. -/
theorem operation_of_encode_eq (hwf : i.wf = true) (h : b :: tail = encode i ++ rest) : i.operation = decodeOp b := by
  cases i with
  | illegal c =>
    obtain ⟨rfl, -⟩ := List.cons.inj h
    exact (decodeOp_illegal b (of_decide_eq_true hwf)).symm
  | _ => cases h; rfl

theorem operation_of_decode (h : decode (b :: tail) = .instr i rest) : i.operation = decodeOp b := by
  obtain ⟨hwf, hbs⟩ := encode_of_decode h
  exact operation_of_encode_eq hwf hbs

theorem length_of_decode (h : decode bs = .instr i rest) : bs.length = i.operation.length + rest.length := by
  obtain ⟨-, rfl⟩ := encode_of_decode h
  rw [List.length_append, encode_length]

theorem decode_eq_truncated_iff {op : Operation} :
    decode bs = .truncated op ↔ ∃ b tail, bs = b :: tail ∧ op = decodeOp b ∧ bs.length < op.length := by
  constructor
  · intro h
    obtain ⟨b, tail, rfl, rfl, hd⟩ := decode_eq_truncated h
    exact ⟨b, tail, rfl, rfl, (decodeAs_eq_none_iff _ _ _).mp hd⟩
  · rintro ⟨b, tail, rfl, rfl, hlt⟩
    rw [decode_cons, (decodeAs_eq_none_iff _ _ _).mpr hlt]

/-- Enough bytes are a whole instruction. -/
theorem exists_decode_eq_instr (h : (decodeOp b).length ≤ tail.length + 1) :
    ∃ i rest, decode (b :: tail) = .instr i rest := by
  rw [decode_cons]
  cases hd : decodeAs (decodeOp b) b tail with
  | some p => exact ⟨p.1, p.2, rfl⟩
  | none => exact absurd ((decodeAs_eq_none_iff _ _ _).mp hd) (by omega)

/-! ### Immediate fields (R82, R83) -/

theorem be64Bytes_injective {v w : Word} (h : be64Bytes v = be64Bytes w) : v = w := by
  have hread := readImm_be64Bytes v []
  rw [h, readImm_be64Bytes] at hread
  cases hread
  rfl

/-- Every s64 but the least is some word's sign and magnitude. -/
theorem exists_smDecode_eq {n : Int} (hlo : -(2 ^ 63 - 1) ≤ n) (hhi : n ≤ 2 ^ 63 - 1) : ∃ w, smDecode w = n := by
  have hmag : (BitVec.ofNat 64 n.natAbs).toNat = n.natAbs := Nat.mod_eq_of_lt (by omega)
  have hlt : (BitVec.ofNat 64 n.natAbs).toNat < 2 ^ 63 := by omega
  rcases Int.le_total 0 n with h | h
  · exact ⟨BitVec.ofNat 64 n.natAbs, by rw [smDecode_of_lt hlt]; omega⟩
  · exact ⟨withSignBit (BitVec.ofNat 64 n.natAbs), by rw [smDecode_withSignBit hlt]; omega⟩

end Sys2Proof
end

section
/-! SUPPORT. The checked encoder of structured instructions (R90 to R95): what it accepts, and which instruction its
bytes are. -/

namespace Sys2Proof

open Sys2Proof.Spec

variable {op : Operation} {toks : List Token} {bytes : List Byte}

/-! ### Shapes -/

@[simp] theorem fitsShape_nil {toks : List Token} : fitsShape toks [] = true ↔ toks = [] := by
  cases toks <;> simp [fitsShape]

@[simp] theorem fitsShape_cons {k : FieldKind} {ks : List FieldKind} :
    fitsShape toks (k :: ks) = true ↔ ∃ t ts, toks = t :: ts ∧ t.fits k = true ∧ fitsShape ts ks = true := by
  cases toks <;> simp [fitsShape]

/-- Fitting a shape is having its length and fitting it field by field. -/
theorem fitsShape_iff (toks : List Token) (ks : List FieldKind) :
    fitsShape toks ks = true ↔ toks.length = ks.length ∧
      ∀ (k : Nat) (t : Token) (f : FieldKind), toks[k]? = some t → ks[k]? = some f → t.fits f = true := by
  induction toks generalizing ks with
  | nil => cases ks <;> simp [fitsShape]
  | cons t ts ih =>
    cases ks with
    | nil => simp [fitsShape]
    | cons f fs =>
      simp only [fitsShape, Bool.and_eq_true, ih, List.length_cons, Nat.add_right_cancel_iff]
      constructor
      · rintro ⟨hfit, hlen, hrest⟩
        refine ⟨hlen, fun k t' f' ht hf => ?_⟩
        cases k with
        | zero => cases ht; cases hf; exact hfit
        | succ k => exact hrest k t' f' ht hf
      · rintro ⟨hlen, hall⟩
        exact ⟨hall 0 t f rfl rfl, hlen, fun k t' f' ht hf => hall (k + 1) t' f' ht hf⟩

theorem emit_length_of_fits {t : Token} {k : FieldKind} (h : t.fits k = true) : t.emit.length = k.size :=
  match t, k, h with
  | .register _, .reg, _ => rfl
  | .positiveInteger _, .simm, _ => rfl
  | .positiveInteger _, .uimm, _ => rfl
  | .negativeInteger _, .simm, _ => rfl

theorem flatMap_emit_length {ks : List FieldKind} (h : fitsShape toks ks = true) :
    (toks.flatMap Token.emit).length = (ks.map FieldKind.size).sum := by
  induction ks generalizing toks with
  | nil => simp [fitsShape_nil.mp h]
  | cons k ks ih =>
    obtain ⟨t, ts, rfl, ht, hts⟩ := fitsShape_cons.mp h
    simp [emit_length_of_fits ht, ih hts]

/-! ### The checked encoder -/

theorem encodeTokens_eq_ok_iff : encodeTokens op toks = .ok bytes ↔
    ∃ b, encodeOp op = some b ∧ fitsShape toks op.shape = true ∧ bytes = b :: toks.flatMap Token.emit := by
  unfold encodeTokens encRaw
  split
  · next hfit => cases encodeOp op <;> simp [hfit, eq_comm]
  · next hfit => simp [hfit]

theorem encodeTokens_ok_or_error (op : Operation) (toks : List Token) :
    (∃ bytes, encodeTokens op toks = .ok bytes) ∨ encodeTokens op toks = .error (.encodeArityMismatch (some op)) := by
  unfold encodeTokens
  split
  · cases encRaw op toks with
    | some bytes => exact .inl ⟨bytes, rfl⟩
    | none => exact .inr rfl
  · exact .inr rfl

/-! ### Which instruction an accepted token list is -/

/-- The word an immediate token is emitted as (R84); a Register token has none, and stands at 0. -/
def Token.word : Token → Word
  | .register _ => 0
  | .positiveInteger m => m
  | .negativeInteger m => withSignBit m

theorem fits_register_eq_true {a : RegIdx} {k : FieldKind} : (Token.register a).fits k = true ↔ k = .reg := by
  cases k <;> simp [Token.fits]

theorem fits_negativeInteger_eq_true {m : Word} {k : FieldKind} :
    (Token.negativeInteger m).fits k = true ↔ k = .simm := by
  cases k <;> simp [Token.fits]

theorem fits_reg {t : Token} (h : t.fits .reg = true) : ∃ i, t = .register i :=
  match t, h with
  | .register i, _ => ⟨i, rfl⟩

theorem fitsShape_reg_cons {ks : List FieldKind} (h : fitsShape toks (.reg :: ks) = true) :
    ∃ a ts, toks = .register a :: ts ∧ fitsShape ts ks = true := by
  obtain ⟨t, ts, rfl, ht, hts⟩ := fitsShape_cons.mp h
  obtain ⟨a, rfl⟩ := fits_reg ht
  exact ⟨a, ts, rfl, hts⟩

theorem fitsShape_regs3 (h : fitsShape toks [.reg, .reg, .reg] = true) :
    ∃ a c d, toks = [.register a, .register c, .register d] := by
  obtain ⟨a, ts, rfl, hts⟩ := fitsShape_reg_cons h
  obtain ⟨c, us, rfl, hus⟩ := fitsShape_reg_cons hts
  obtain ⟨d, vs, rfl, hvs⟩ := fitsShape_reg_cons hus
  obtain rfl := fitsShape_nil.mp hvs
  exact ⟨a, c, d, rfl⟩

/-- A token list for one immediate field that is emitted as `be64_bytes(w)` is one token, of word `w`. -/
theorem immediate_of_fitsShape {k : FieldKind} {w : Word} (hk : k ≠ .reg) (h : fitsShape toks [k] = true)
    (hw : be64Bytes w = toks.flatMap Token.emit) :
    registersOf toks = [] ∧ (immediateOf toks).map Token.word = some w := by
  obtain ⟨t, ts, rfl, ht, hts⟩ := fitsShape_cons.mp h
  obtain rfl := fitsShape_nil.mp hts
  simp only [List.flatMap_cons, List.flatMap_nil, List.append_nil] at hw
  cases t with
  | register a => exact absurd (fits_register_eq_true.mp ht) hk
  | positiveInteger m => exact ⟨rfl, congrArg some (be64Bytes_injective hw).symm⟩
  | negativeInteger m => exact ⟨rfl, congrArg some (be64Bytes_injective hw).symm⟩

/-- The operand bytes of an instruction say which registers and which immediate its tokens were. -/
theorem operands_of_encode_eq {i : Instr} (hfit : fitsShape toks i.operation.shape = true)
    (h : (encode i).tail = toks.flatMap Token.emit) :
    i.registers = registersOf toks ∧ i.immediate = (immediateOf toks).map Token.word := by
  cases i with
  | halt | illegal =>
    obtain rfl := fitsShape_nil.mp hfit
    exact ⟨rfl, rfl⟩
  | jmp | jumpForward | jumpBackward | jeq | jne | jgt | jlt | jumpGreaterOrEqual | jumpLessOrEqual =>
    obtain ⟨a, ts, rfl, hts⟩ := fitsShape_reg_cons hfit
    obtain rfl := fitsShape_nil.mp hts
    cases h
    exact ⟨rfl, rfl⟩
  | cmp =>
    obtain ⟨a, ts, rfl, hts⟩ := fitsShape_reg_cons hfit
    obtain ⟨c, us, rfl, hus⟩ := fitsShape_reg_cons hts
    obtain rfl := fitsShape_nil.mp hus
    cases h
    exact ⟨rfl, rfl⟩
  | add | sub | mul | div | dereference =>
    obtain ⟨a, c, d, rfl⟩ := fitsShape_regs3 hfit
    cases h
    exact ⟨rfl, rfl⟩
  | load rd w | loadPointer rd w =>
    obtain ⟨a, ts, rfl, hts⟩ := fitsShape_reg_cons hfit
    obtain ⟨rfl, hw⟩ := List.cons.inj h
    obtain ⟨hregs, himm⟩ := immediate_of_fitsShape (by decide) hts hw
    exact ⟨congrArg (rd :: ·) hregs.symm, himm.symm⟩
  | write rb ro w | writePointer rb ro w =>
    obtain ⟨a, ts, rfl, hts⟩ := fitsShape_reg_cons hfit
    obtain ⟨c, us, rfl, hus⟩ := fitsShape_reg_cons hts
    obtain ⟨rfl, hcw⟩ := List.cons.inj h
    obtain ⟨rfl, hw⟩ := List.cons.inj hcw
    obtain ⟨hregs, himm⟩ := immediate_of_fitsShape (by decide) hus hw
    exact ⟨congrArg (rb :: ro :: ·) hregs.symm, himm.symm⟩

/-- What the checked encoder emits has the operation's length and decodes, before any bytes, to an instruction with the
tokens' operands. -/
theorem decode_of_encodeTokens (h : encodeTokens op toks = .ok bytes) : bytes.length = op.length ∧
    ∃ i, (∀ rest, decode (bytes ++ rest) = .instr i rest) ∧ i.operation = op ∧
      i.registers = registersOf toks ∧ i.immediate = (immediateOf toks).map Token.word := by
  obtain ⟨b, hop, hfit, rfl⟩ := encodeTokens_eq_ok_iff.mp h
  have hlen : (toks.flatMap Token.emit).length + 1 = op.length := by
    rw [flatMap_emit_length hfit, Operation.length, Nat.add_comm]
  obtain rfl := decodeOp_of_encodeOp hop
  obtain ⟨i, rest, hd⟩ := exists_decode_eq_instr hlen.ge
  have hiop := operation_of_decode hd
  have hsize := length_of_decode hd
  rw [hiop, List.length_cons, hlen] at hsize
  obtain rfl : rest = [] := List.eq_nil_of_length_eq_zero (by omega)
  have henc : encode i = b :: toks.flatMap Token.emit := by simpa using (encode_of_decode hd).2.symm
  exact ⟨hlen, i, fun rest => decode_append hd rest, hiop,
    operands_of_encode_eq (by rw [hiop]; exact hfit) (by rw [henc]; rfl)⟩

/-! ### The immediate token, by the kind of its field -/

theorem immediateOf_ne_register (toks : List Token) (a : RegIdx) : immediateOf toks ≠ some (.register a) := by
  induction toks with
  | nil => simp [immediateOf]
  | cons t ts ih => cases t <;> simp [immediateOf, ih]

/-- A NegativeInteger among accepted tokens stands in a signed field. -/
theorem simm_mem_of_negativeInteger {ks : List FieldKind} {m : Word} (hfit : fitsShape toks ks = true)
    (h : immediateOf toks = some (.negativeInteger m)) : .simm ∈ ks := by
  induction ks generalizing toks with
  | nil => simp [fitsShape_nil.mp hfit, immediateOf] at h
  | cons k ks ih =>
    obtain ⟨t, ts, rfl, ht, hts⟩ := fitsShape_cons.mp hfit
    cases t with
    | register a => exact List.mem_cons_of_mem k (ih hts h)
    | positiveInteger p => cases h
    | negativeInteger p => exact fits_negativeInteger_eq_true.mp ht ▸ List.mem_cons_self

theorem simm_not_mem_of_uimm_mem (h : FieldKind.uimm ∈ op.shape) : FieldKind.simm ∉ op.shape := by
  revert h; cases op <;> decide

/-- In an unsigned field the immediate token is the magnitude as it stands. -/
theorem immediateOf_eq_positiveInteger {w : Word} (hfit : fitsShape toks op.shape = true)
    (huimm : FieldKind.uimm ∈ op.shape) (h : (immediateOf toks).map Token.word = some w) :
    immediateOf toks = some (.positiveInteger w) := by
  obtain ⟨t, ht, rfl⟩ := Option.map_eq_some_iff.mp h
  cases t with
  | register a => exact absurd ht (immediateOf_ne_register toks a)
  | positiveInteger m => exact ht
  | negativeInteger m => exact absurd (simm_mem_of_negativeInteger hfit ht) (simm_not_mem_of_uimm_mem huimm)

end Sys2Proof
end

section
/-! The obligations about the binary format (spec/30_encoding.md). -/

namespace Sys2Proof

/-- Settles O5, instruction by instruction; the immediate's bytes read back as its word. -/
theorem decodeOfEncodeIsTheInstruction : Obligations.DecodeOfEncodeIsTheInstruction := fun _ h rest =>
  decode_encode h rest

/-- Settles O6, operation by operation: each format reader says which bytes it took. -/
theorem decodedBytesAreTheEncoding : Obligations.DecodedBytesAreTheEncoding := fun _ _ _ h => encode_of_decode h

/-- Settles O17: the bytes are long enough to decode, what they decode to has them as its encoding, and an encoding
determines registers and immediate. -/
theorem encoderAndDecoderAgree : Obligations.EncoderAndDecoderAgree := by
  intro op toks bytes rest h
  obtain ⟨-, i, hdec, hop, hregs, himm⟩ := decode_of_encodeTokens h
  obtain ⟨-, -, hfit, -⟩ := encodeTokens_eq_ok_iff.mp h
  refine ⟨i, hdec rest, hop, hregs, by simp [himm], fun w hw => ⟨fun huimm => ?unsigned, fun _ m hm =>
    ⟨fun hpos => ?positive, fun hneg => ?negative⟩⟩⟩
  case unsigned => exact immediateOf_eq_positiveInteger hfit huimm (himm.symm.trans hw)
  case positive =>
    obtain rfl : m = w := by simpa [himm, hpos, Token.word] using hw
    exact smDecode_of_lt hm
  case negative =>
    obtain rfl : withSignBit m = w := by simpa [himm, hneg, Token.word] using hw
    exact smDecode_withSignBit hm

/-- Settles O8. -/
theorem truncatedExactlyWhenShort : Obligations.TruncatedExactlyWhenShort := fun _ _ => decode_eq_truncated_iff

/-- Settles O9: the bytes are the encoding and the rest, and an encoding decodes whatever follows it. -/
theorem bytesAfterAnInstructionDoNotMatter : Obligations.BytesAfterAnInstructionDoNotMatter := fun _ _ _ more h =>
  decode_append h more

/-- Settles O11. -/
theorem immediateFieldsDecode : Obligations.ImmediateFieldsDecode := by
  refine ⟨fun i rd b0 b1 b2 b3 b4 b5 b6 b7 rest => ?field, fun v w => be64Bytes_injective, fun w => ?value,
    by simp [smDecode_eq], by simp [smDecode_eq], by simp [smDecode_eq], by simp [smDecode_eq],
    fun n => ⟨?within, fun h => exists_smDecode_eq h.1 h.2⟩⟩
  case field =>
    have hd : decode ([18, rd, b0, b1, b2, b3, b4, b5, b6, b7] ++ rest) =
        .instr (.loadPointer rd (be64 b0 b1 b2 b3 b4 b5 b6 b7)) rest := rfl
    rw [hd, Decoded.instr.injEq]
    exact ⟨fun h => h.1.symm, fun h => ⟨h.symm, rfl⟩⟩
  case value =>
    rw [smDecode_eq]
    split <;> omega
  case within =>
    rintro ⟨w, rfl⟩
    exact Machine.smDecode_bounds w

/-- Settles O14. -/
theorem opcodeDecodeAndEncodeAgree : Obligations.OpcodeDecodeAndEncodeAgree := by
  refine ⟨fun op hop => ?defined, decodeOp_illegal, fun b hb => ?below20, fun op op' b h h' => ?injective, rfl⟩
  case defined =>
    cases op with
    | illegal => exact absurd rfl hop
    | _ => exact ⟨_, rfl, by decide, rfl⟩
  case below20 =>
    have hdef : decodeOp b ≠ .illegal := fun h => by have := (decodeOp_eq_illegal_iff b).mp h; omega
    exact ⟨hdef, encodeOp_decodeOp b hdef⟩
  case injective => rw [← decodeOp_of_encodeOp h, ← decodeOp_of_encodeOp h']

/-- Settles O15: the table is read off the shapes; a decoded instruction's bytes are its encoding, of `L(op)` bytes. -/
theorem shapesAndLengths : Obligations.ShapesAndLengths := by
  refine ⟨fun op => ?law, rfl, rfl, by decide, by decide, rfl, rfl, rfl, rfl, rfl, by decide, by decide, by decide, rfl,
    fun bs i rest h => ⟨length_of_decode h, ?opcode⟩⟩
  case law => cases op <;> rfl
  case opcode =>
    obtain ⟨b, tail, rfl, -⟩ := decode_eq_instr h
    exact ⟨b, tail, rfl, operation_of_decode h⟩

/-- Settles O16. -/
theorem encoderChecksTheShape : Obligations.EncoderChecksTheShape := by
  refine fun op toks => ⟨fun bytes => ?accepts, fun bytes h => (decode_of_encodeTokens h).1,
    encodeTokens_ok_or_error op toks⟩
  simp only [encodeTokens_eq_ok_iff, fitsShape_iff, and_assoc]

/-- Settles O7: each word is read off by its operation's format. -/
theorem wordsOfTheSpecDecode : Obligations.WordsOfTheSpecDecode :=
  ⟨rfl, rfl, rfl, rfl, rfl, rfl, rfl, rfl, rfl⟩

end Sys2Proof
end

section
/-! SUPPORT. The cycle, by what stands at the pc: fetching, the report of a cycle that runs an instruction, and the pc
after it. -/

namespace Sys2Proof.Machine

open Sys2Proof.Spec

variable {s t : State} {i : Instr} {b : Byte} {f : Fault}

/-! ### What stands at the pc -/

theorem opcodeAt_eq_some_iff :
    opcodeAt s = some b ↔ ∃ tail, s.mem.program.drop s.pc.toNat = b :: tail := by
  constructor
  · intro h
    obtain ⟨hpc, rfl⟩ := List.getElem?_eq_some_iff.mp h
    exact ⟨_, List.drop_eq_getElem_cons hpc⟩
  · rintro ⟨tail, h⟩
    exact (drop_eq_cons h).1

theorem pc_lt_of_opcodeAt (h : opcodeAt s = some b) : s.pc.toNat < s.mem.program.length :=
  (List.getElem?_eq_some_iff.mp h).1

theorem onlyRegsAndPc_setPc (s : State) (p : Word) : OnlyRegsAndPc [] s (s.setPc p) :=
  ⟨fun _ _ => rfl, ⟨rfl, rfl⟩, fun _ => rfl, heapSame_of_mem_eq rfl⟩

theorem fetched_of_opcodeAt (hop : opcodeAt s = some b) (hd : ∀ rest, decode (b :: rest) = .instr i rest) :
    Fetched s i := by
  obtain ⟨tail, h⟩ := opcodeAt_eq_some_iff.mp hop
  exact ⟨tail, by rw [h, hd]⟩

theorem opcodeAt_of_fetched (h : Fetched s i) : ∃ b, opcodeAt s = some b ∧ i.operation = decodeOp b := by
  obtain ⟨rest, hd⟩ := h
  obtain ⟨b, tail, hb, -⟩ := decode_eq_instr hd
  exact ⟨b, opcodeAt_eq_some_iff.mpr ⟨tail, hb⟩, operation_of_decode (hb ▸ hd)⟩

theorem one_le_operation_length (op : Operation) : 1 ≤ op.length := Nat.le_add_right 1 _

/-- The pc past a fetched instruction is within the program (R30). -/
theorem pc_add_length_le (h : Fetched s i) : s.pc.toNat + i.operation.length ≤ s.mem.program.length := by
  obtain ⟨rest, hd⟩ := h
  have hlen := length_of_decode hd
  have hpos := one_le_operation_length i.operation
  rw [List.length_drop] at hlen
  omega

theorem pc_add_length_lt (h : Fetched s i) (hmax : s.mem.program.length ≤ Config.progMax) :
    s.pc.toNat + i.operation.length < 2 ^ 64 :=
  Nat.lt_of_le_of_lt ((pc_add_length_le h).trans hmax) (by decide)

/-- Enough bytes from the pc on are a whole instruction. -/
theorem exists_fetched (hop : opcodeAt s = some b)
    (hlen : s.pc.toNat + (decodeOp b).length ≤ s.mem.program.length) : ∃ i, Fetched s i ∧ i.operation = decodeOp b := by
  obtain ⟨tail, htail⟩ := opcodeAt_eq_some_iff.mp hop
  have hsize := congrArg List.length htail
  rw [List.length_drop, List.length_cons] at hsize
  obtain ⟨i, rest, hd⟩ := exists_decode_eq_instr (b := b) (tail := tail) (by omega)
  exact ⟨i, ⟨rest, by rw [htail, hd]⟩, operation_of_decode hd⟩

theorem encode_eq_take_of_fetched (h : Fetched s i) :
    encode i = (s.mem.program.drop s.pc.toNat).take i.operation.length := by
  obtain ⟨rest, hd⟩ := h
  rw [(encode_of_decode hd).2, List.take_left' (encode_length i)]

theorem fetch_eq_truncated_iff {op : Operation} : fetch s = .truncated op ↔
    ∃ b, opcodeAt s = some b ∧ op = decodeOp b ∧ s.mem.program.length < s.pc.toNat + (decodeOp b).length := by
  constructor
  · intro h
    obtain ⟨b, tail, htail, rfl, hlt⟩ := decode_eq_truncated_iff.mp h
    rw [List.length_drop] at hlt
    exact ⟨b, opcodeAt_eq_some_iff.mpr ⟨tail, htail⟩, rfl, by omega⟩
  · rintro ⟨b, hop, rfl, hlt⟩
    exact fetch_eq_truncated hop hlt

/-! ### Steps and cycles -/

theorem step_eq_next_cases (h : step s = .next t) : t = s ∨ ∃ i, Fetched s i ∧ exec i s = .next t := by
  rcases step_cases s with ⟨-, e⟩ | ⟨op, -, e⟩ | ⟨i, rest, hf, e⟩
  · cases e.symm.trans h; exact .inl rfl
  · cases e.symm.trans h
  · exact .inr ⟨i, ⟨rest, hf⟩, e.symm.trans h⟩

theorem step_eq_fault_iff : step s = .fault f ↔
    (∃ op, fetch s = .truncated op ∧ f = .decodeError s.pc op) ∨ ∃ i, Fetched s i ∧ ExecFault s i f := by
  constructor
  · intro h
    rcases step_cases s with ⟨-, e⟩ | ⟨op, hf, e⟩ | ⟨i, rest, hf, e⟩
    · cases e.symm.trans h
    · cases e.symm.trans h; exact .inl ⟨op, hf, rfl⟩
    · exact .inr ⟨i, ⟨rest, hf⟩, exec_eq_fault_iff.mp (e.symm.trans h)⟩
  · rintro (⟨op, hf, rfl⟩ | ⟨i, hf, he⟩)
    · simp only [step, hf, raise]
    · rw [step_of_fetched hf, exec_eq_fault_iff.mpr he]

/-- No step is refused. -/
theorem step_next_or_fault (s : State) : (∃ t, step s = .next t) ∨ ∃ f, step s = .fault f := by
  rcases step_cases s with ⟨-, e⟩ | ⟨op, -, e⟩ | ⟨i, rest, -, e⟩
  · exact .inl ⟨s, e⟩
  · exact .inr ⟨_, e⟩
  · rcases exec_outcome i s with ⟨t, ht, -⟩ | ⟨f, hf, -⟩
    · exact .inl ⟨t, e.trans ht⟩
    · exact .inr ⟨f, e.trans hf⟩

theorem cycle_fst_cases (s : State) : (cycle s).1 = s ∨ ∃ i, Fetched s i ∧ exec i s = .next (cycle s).1 := by
  rcases cycle_fst s with e | e
  · exact .inl e
  · exact step_eq_next_cases e

/-- What a cycle reports that runs the instruction of opcode byte `b` to its end (R123). -/
def reportOf (b : Byte) (pc0 : Word) : Report :=
  if b = 0 then .halt .haltInstruction else if 20 ≤ b.toNat then .halt (.unknownOpcode pc0 b) else .continues

theorem reportOf_of_ge (h : 20 ≤ b.toNat) (pc0 : Word) : reportOf b pc0 = .halt (.unknownOpcode pc0 b) := by
  have hb : b ≠ 0 := by rintro rfl; revert h; decide
  rw [reportOf, if_neg hb, if_pos h]

theorem reportOf_of_lt (hpos : b ≠ 0) (h : b.toNat < 20) (pc0 : Word) : reportOf b pc0 = .continues := by
  rw [reportOf, if_neg hpos, if_neg (Nat.not_le.mpr h)]

/-- A byte is Halt's, an ordinary instruction's, or Illegal. -/
theorem byte_cases (b : Byte) : b = 0 ∨ (b ≠ 0 ∧ b.toNat < 20) ∨ 20 ≤ b.toNat := by
  by_cases h : b = 0
  · exact .inl h
  · rcases Nat.lt_or_ge b.toNat 20 with hlt | hge
    · exact .inr (.inl ⟨h, hlt⟩)
    · exact .inr (.inr hge)

theorem cycle_of_exec_next (hf : Fetched s i) (hop : opcodeAt s = some b) (he : exec i s = .next t) :
    cycle s = (t, reportOf b s.pc) := by
  rw [cycle_of_next ((step_of_fetched hf).trans he), haltSignal_of_fetched hf]
  obtain ⟨rest, hd⟩ := hf
  obtain ⟨tail, htail⟩ := opcodeAt_eq_some_iff.mp hop
  obtain ⟨hwf, henc⟩ := encode_of_decode (htail ▸ hd)
  cases i with
  | illegal c =>
    obtain ⟨rfl, -⟩ := List.cons.inj henc
    rw [reportOf_of_ge (of_decide_eq_true hwf)]
    rfl
  | _ => cases henc; rfl

theorem cycle_of_opcode_halt (hop : opcodeAt s = some 0) : cycle s = (s.advance 1, .halt .haltInstruction) :=
  cycle_of_exec_next (fetched_of_opcodeAt (i := .halt) hop fun _ => rfl) hop rfl

theorem cycle_of_opcode_illegal (hop : opcodeAt s = some b) (hb : 20 ≤ b.toNat) :
    cycle s = (s.advance 1, .halt (.unknownOpcode s.pc b)) := by
  rw [cycle_of_exec_next (fetched_of_opcodeAt hop (decode_illegal hb)) hop rfl, reportOf_of_ge hb]

theorem cycle_at_end (h : s.mem.program.length ≤ s.pc.toNat) : cycle s = (s, .halt .endOfProgram) := by
  have hfetch := (fetch_eq_endOfBytes_iff s).mpr h
  have hstep : step s = .next s := by simp only [step, hfetch]
  rw [cycle_of_next hstep]
  simp only [haltSignal, hfetch]

/-- Every cycle stands at the end of the program, faults, or runs an instruction to its end. -/
theorem cycle_cases (s : State) :
    (s.mem.program.length ≤ s.pc.toNat ∧ cycle s = (s, .halt .endOfProgram)) ∨
    (∃ f, step s = .fault f ∧ cycle s = (s, .fault f)) ∨
    ∃ i b t, Fetched s i ∧ opcodeAt s = some b ∧ exec i s = .next t ∧ cycle s = (t, reportOf b s.pc) := by
  rcases step_cases s with ⟨hf, -⟩ | ⟨op, -, e⟩ | ⟨i, rest, hf, e⟩
  · have hend := (fetch_eq_endOfBytes_iff s).mp hf
    exact .inl ⟨hend, cycle_at_end hend⟩
  · exact .inr (.inl ⟨_, e, cycle_of_fault e⟩)
  · have hfetched : Fetched s i := ⟨rest, hf⟩
    rcases exec_outcome i s with ⟨t, ht, -⟩ | ⟨f, hfault, -⟩
    · obtain ⟨b, hop, -⟩ := opcodeAt_of_fetched hfetched
      exact .inr (.inr ⟨i, b, t, hfetched, hop, ht, cycle_of_exec_next hfetched hop ht⟩)
    · exact .inr (.inl ⟨f, e.trans hfault, cycle_of_fault (e.trans hfault)⟩)

theorem reportOf_ne_fault (b : Byte) (pc0 : Word) (f : Fault) : reportOf b pc0 ≠ .fault f := by
  unfold reportOf
  split
  · simp
  · split <;> simp

theorem step_of_cycle_fault (h : (cycle s).2 = .fault f) : step s = .fault f := by
  rcases cycle_cases s with ⟨-, e⟩ | ⟨f', hf, e⟩ | ⟨i, b, t, -, -, -, e⟩
  · rw [e] at h; cases h
  · rw [e] at h; cases h; exact hf
  · rw [e] at h; exact absurd h (reportOf_ne_fault b s.pc f)

theorem cycle_of_opcode_ordinary (hop : opcodeAt s = some b) (hb : b ≠ 0) (hlt : b.toNat < 20) :
    (cycle s).2 = .continues ∨ ∃ f, (cycle s).2 = .fault f := by
  rcases cycle_cases s with ⟨hend, -⟩ | ⟨f, -, e⟩ | ⟨i, c, t, -, hc, -, e⟩
  · exact absurd (pc_lt_of_opcodeAt hop) (Nat.not_lt.mpr hend)
  · exact .inr ⟨f, by rw [e]⟩
  · obtain rfl := Option.some.inj (hop.symm.trans hc)
    exact .inl (by rw [e, reportOf_of_lt hb hlt])

/-! ### Appends -/

theorem opcodeAt_append {bytes : List Byte} (h : append bytes s = some t) (hop : opcodeAt s = some b) :
    opcodeAt t = some b := by
  obtain ⟨-, rfl⟩ := append_eq_some.mp h
  exact (List.getElem?_append_left (pc_lt_of_opcodeAt hop)).trans hop

/-- A whole instruction stays what it is when the host appends bytes. -/
theorem fetched_append {bytes : List Byte} (h : append bytes s = some t) (hf : Fetched s i) : Fetched t i := by
  have hpc := pc_add_length_le hf
  obtain ⟨-, rfl⟩ := append_eq_some.mp h
  obtain ⟨rest, hd⟩ := hf
  refine ⟨rest ++ bytes, ?_⟩
  show decode ((s.mem.program ++ bytes).drop s.pc.toNat) = _
  rw [List.drop_append_of_le_length (by omega), decode_append hd bytes]

/-- An append changes nothing that a faulting instruction reads. -/
theorem execFault_append {bytes : List Byte} (h : append bytes s = some t) (he : ExecFault s i f) :
    ExecFault t i f := by
  obtain ⟨-, rfl⟩ := append_eq_some.mp h
  cases he with
  | divisionByZero hb => exact .divisionByZero hb
  | noSlot hr => exact .noSlot hr
  | pastTop hd => exact .pastTop hd
  | belowZero hd => exact .belowZero hd

end Sys2Proof.Machine
end

section
/-! SUPPORT. The conditional jumps' match sets, as the flag values they are (R182 to R187), and the pc after every
instruction (R29). -/

namespace Sys2Proof.Machine

open Sys2Proof.Spec

theorem jeqMatch_iff {f : Flag} : jeqMatch f = true ↔ f = .equal := by cases f <;> decide
theorem jneMatch_iff {f : Flag} : jneMatch f = true ↔ f = .greater ∨ f = .less ∨ f = .notEqual := by
  cases f <;> decide
theorem jgtMatch_iff {f : Flag} : jgtMatch f = true ↔ f = .greater := by cases f <;> decide
theorem jltMatch_iff {f : Flag} : jltMatch f = true ↔ f = .less := by cases f <;> decide
theorem jgeMatch_iff {f : Flag} : jgeMatch f = true ↔ f = .greater ∨ f = .equal := by cases f <;> decide
theorem jleMatch_iff {f : Flag} : jleMatch f = true ↔ f = .less ∨ f = .equal := by cases f <;> decide

variable {s t : State} {i : Instr}

@[simp] theorem toNat_ofNat_asU (v : Value) : (BitVec.ofNat 64 v.asU).toNat = v.asU := Nat.mod_eq_of_lt v.asU_lt

theorem toNat_add_ofNat {p : Word} {n : Nat} (h : p.toNat + n < 2 ^ 64) :
    (p + BitVec.ofNat 64 n).toNat = p.toNat + n := by
  rw [BitVec.toNat_add, BitVec.toNat_ofNat, Nat.add_mod_mod, Nat.mod_eq_of_lt h]

theorem condJump_pc {taken : Flag → Bool} {rt : RegIdx} {P : Prop} [Decidable P] (hP : taken s.flag = true ↔ P)
    (hpc : s.pc.toNat + 2 < 2 ^ 64) (h : condJump taken rt s = .next t) :
    t.pc.toNat = if P then (s.readReg rt).asU else s.pc.toNat + 2 := by
  cases (condJump_eq taken rt s).symm.trans h
  by_cases hp : P
  · rw [if_pos (hP.mpr hp), if_pos hp]
    exact toNat_ofNat_asU _
  · rw [if_neg fun e => hp (hP.mp e), if_neg hp]
    exact toNat_add_ofNat hpc

/-- The pc after an instruction that completes, where the pc past its bytes is a u64. -/
theorem exec_pc (h : exec i s = .next t) (hpc : s.pc.toNat + i.operation.length < 2 ^ 64) :
    t.pc.toNat = pcAfter i s := by
  cases i with
  | halt | illegal | load | loadPointer | add | sub | mul | cmp | write | writePointer =>
    cases h; exact toNat_add_ofNat hpc
  | div a b d =>
    rcases execDiv_cases a b d s with ⟨-, e⟩ | ⟨-, e⟩ <;> cases e.symm.trans h
    exact toNat_add_ofNat hpc
  | dereference rb ro rd =>
    rcases execDereference_cases rb ro rd s with ⟨-, e⟩ | ⟨v, -, e⟩ <;> cases e.symm.trans h
    exact toNat_add_ofNat hpc
  | jmp rt => cases h; exact toNat_ofNat_asU _
  | jumpForward rt =>
    rcases execJumpForward_cases rt s with ⟨-, e⟩ | ⟨hle, e⟩ <;> cases e.symm.trans h
    exact Nat.mod_eq_of_lt (by unfold pcMax at hle; omega)
  | jumpBackward rt =>
    rcases execJumpBackward_cases rt s with ⟨-, e⟩ | ⟨-, e⟩ <;> cases e.symm.trans h
    exact Nat.mod_eq_of_lt (Nat.lt_of_le_of_lt (Nat.sub_le _ _) hpc)
  | jeq rt => exact condJump_pc jeqMatch_iff hpc h
  | jne rt => exact condJump_pc jneMatch_iff hpc h
  | jgt rt => exact condJump_pc jgtMatch_iff hpc h
  | jlt rt => exact condJump_pc jltMatch_iff hpc h
  | jumpGreaterOrEqual rt => exact condJump_pc jgeMatch_iff hpc h
  | jumpLessOrEqual rt => exact condJump_pc jleMatch_iff hpc h

end Sys2Proof.Machine
end

section
/-! SUPPORT. The listed causes of a fault (R220 to R225) are those of `ExecFault`; and two runs that differ in
the remainder register alone. -/

namespace Sys2Proof.Machine

open Sys2Proof.Spec

variable {s t : State} {i : Instr}

theorem heapRead_eq_none_iff (s : State) (id k : Nat) : s.mem.heapRead id k = none ↔
    accessBlockLength s id = none ∨ ∃ n, accessBlockLength s id = some n ∧ n ≤ k := by
  simp [Memory.heapRead_eq_none, accessBlockLength]

/-- An instruction does not fault with DecodeError. -/
theorem not_execFault_decodeError {pc0 : Word} {op : Operation} : ¬ExecFault s i (.decodeError pc0 op) := by
  intro h
  cases h

theorem faultCause_of_execFault {f : Fault} (hf : Fetched s i) (he : ExecFault s i f) : FaultCause s f := by
  cases he with
  | divisionByZero h => exact .inr (.inl ⟨_, _, _, hf, h, rfl⟩)
  | @noSlot rb ro rd h =>
    refine .inr (.inr (.inl ⟨rb, ro, rd, _, _, hf, toNat_ofNat_asU _, toNat_ofNat_asU _, ?_, rfl⟩))
    simpa only [toNat_ofNat_asU, blockId, slotIndex] using (heapRead_eq_none_iff s _ _).mp h
  | @pastTop rt h =>
    refine .inr (.inr (.inr (.inl ⟨rt, hf, ?_, rfl⟩)))
    unfold pcMax relBase at h; omega
  | belowZero h => exact .inr (.inr (.inr (.inr ⟨_, hf, h, rfl⟩)))

theorem faultCause_of_step {f : Fault} (h : step s = .fault f) : FaultCause s f := by
  rcases step_eq_fault_iff.mp h with ⟨op, hcut, rfl⟩ | ⟨i, hf, he⟩
  · obtain ⟨b, hop, rfl, hlen⟩ := fetch_eq_truncated_iff.mp hcut
    exact .inl ⟨b, hop, hlen, rfl⟩
  · exact faultCause_of_execFault hf he

theorem step_of_faultCause {f : Fault} (h : FaultCause s f) : step s = .fault f := by
  rw [step_eq_fault_iff]
  rcases h with ⟨b, hop, hlen, rfl⟩ | ⟨a, b, d, hf, h, rfl⟩ | ⟨rb, ro, rd, id, off, hf, hid, hoff, h, rfl⟩ |
    ⟨rt, hf, h, rfl⟩ | ⟨rt, hf, h, rfl⟩
  · exact .inl ⟨_, fetch_eq_truncated_iff.mpr ⟨b, hop, rfl, hlen⟩, rfl⟩
  · exact .inr ⟨_, hf, .divisionByZero h⟩
  · have hidw : id = BitVec.ofNat 64 (blockId s rb) := BitVec.eq_of_toNat_eq (hid.trans (toNat_ofNat_asU _).symm)
    have hoffw : off = BitVec.ofNat 64 (slotIndex s ro) :=
      BitVec.eq_of_toNat_eq (hoff.trans (toNat_ofNat_asU _).symm)
    rw [hid, hoff] at h
    rw [hidw, hoffw]
    exact .inr ⟨_, hf, .noSlot ((heapRead_eq_none_iff s _ _).mpr h)⟩
  · exact .inr ⟨_, hf, .pastTop (by unfold pcMax relBase; omega)⟩
  · exact .inr ⟨_, hf, .belowZero h⟩

/-- An outcome with the remainder register of its next state cleared. -/
def clearRem : Host.Outcome State Fault Refusal → Host.Outcome State Fault Refusal
  | .next t => .next (t.setRem 0)
  | .fault f => .fault f
  | .refused r => .refused r

theorem clearRem_ite {P : Prop} [Decidable P] {a a' c c' : Host.Outcome State Fault Refusal}
    (ha : clearRem a = clearRem a') (hc : clearRem c = clearRem c') :
    clearRem (if P then a else c) = clearRem (if P then a' else c') := by
  split
  · exact ha
  · exact hc

/-- No instruction reads the remainder register: the tests that Div, the relative and the conditional jumps make, and
Dereference's heap read, do not see it. -/
theorem clearRem_exec_setRem (i : Instr) (s : State) (w : Word) :
    clearRem (exec i (s.setRem w)) = clearRem (exec i s) := by
  cases i with
  | div | jumpForward | jumpBackward | jeq | jne | jgt | jlt | jumpGreaterOrEqual | jumpLessOrEqual =>
    exact clearRem_ite rfl rfl
  | dereference rb ro rd =>
    cases h : s.mem.heapRead (blockId s rb) (slotIndex s ro) with
    | none =>
      have hw : ExecFault (s.setRem w) (.dereference rb ro rd) _ := .noSlot h
      rw [exec_eq_fault_iff.mpr hw, exec_eq_fault_iff.mpr (.noSlot h)]
      rfl
    | some v =>
      have hw : (s.setRem w).mem.heapRead (blockId (s.setRem w) rb) (slotIndex (s.setRem w) ro) = some v := h
      simp only [exec, execDereference, h, hw]
      rfl
  | _ => rfl

theorem clearRem_step_setRem (s : State) (w : Word) : clearRem (step (s.setRem w)) = clearRem (step s) := by
  have hfetch : fetch (s.setRem w) = fetch s := rfl
  unfold step
  rw [hfetch]
  cases fetch s with
  | endOfBytes => rfl
  | truncated op => rfl
  | instr i rest => exact clearRem_exec_setRem i s w

theorem clearRem_eq_fault_iff {o : Host.Outcome State Fault Refusal} {f : Fault} :
    clearRem o = .fault f ↔ o = .fault f := by
  cases o <;> simp [clearRem]

theorem clearRem_eq_next_iff {o : Host.Outcome State Fault Refusal} {u : State} :
    clearRem o = .next u ↔ ∃ t, o = .next t ∧ t.setRem 0 = u := by
  cases o <;> simp [clearRem]

end Sys2Proof.Machine
end

section
/-! The obligations about the cycle, its halts and its faults (spec/40_cycle_halt_illegal.md, spec/60_exceptions.md,
spec/10_state.md sections 3 to 5). -/

namespace Sys2Proof

open Sys2Proof.Machine Sys2Proof.Spec

/-- Settles O20. -/
theorem stepRunsTheDecodedInstruction : Obligations.StepRunsTheDecodedInstruction := fun _ _ rest h =>
  ⟨(encode_of_decode h).1, step_of_fetched ⟨rest, h⟩⟩

/-- Settles O21: the length of the opcode byte's operation decides whether the instruction is whole. -/
theorem cycleFollowsItsSteps : Obligations.CycleFollowsItsSteps := by
  intro s
  refine ⟨cycle_at_end, fun b hop => ⟨fun hcut => cycle_of_truncated hop hcut, fun hlen => ?_⟩⟩
  obtain ⟨i, hf, hi⟩ := exists_fetched hop hlen
  refine ⟨i, hi, hi ▸ encode_eq_take_of_fetched hf, ?_⟩
  rcases exec_outcome i s with ⟨t, ht, -⟩ | ⟨f, hfault, -⟩
  · have hcycle := cycle_of_exec_next hf hop ht
    exact .inl ⟨t, ht, congrArg Prod.fst hcycle, congrArg Prod.snd hcycle⟩
  · exact .inr ⟨f, hfault, cycle_of_fault ((step_of_fetched hf).trans hfault)⟩

/-- Settles O22: a step faults because its instruction is cut short or by one of the causes of `ExecFault`, which are
the listed ones; and no step is refused. -/
theorem stepFaultsExactlyAsListed : Obligations.StepFaultsExactlyAsListed := by
  refine fun s => ⟨fun f => ⟨faultCause_of_step, step_of_faultCause⟩, fun hnone => ?_⟩
  rcases step_next_or_fault s with h | ⟨f, hf⟩
  · exact h
  · exact absurd ⟨f, faultCause_of_step hf⟩ hnone

/-- Settles O23: the cycle after a fault starts from the same state. -/
theorem faultsChangeNothingAndRecur : Obligations.FaultsChangeNothingAndRecur := by
  intro s f h
  have hcycle := cycle_of_fault (step_of_cycle_fault h)
  rw [hcycle]
  exact ⟨rfl, hcycle⟩

/-- Settles O24: the instruction at the pc is whole, so it stays; and what it reads has not changed. -/
theorem appendCuresOnlyDecodeError : Obligations.AppendCuresOnlyDecodeError := by
  intro s t f bytes hfault hne happ
  rcases step_eq_fault_iff.mp (step_of_cycle_fault hfault) with ⟨op, -, rfl⟩ | ⟨i, hf, he⟩
  · exact absurd rfl (hne _ _)
  · exact cycle_of_fault (step_eq_fault_iff.mpr (.inr ⟨i, fetched_append happ hf, execFault_append happ he⟩))

/-- Settles O25: the opcode byte is still there, and now the bytes reach its operation's length. -/
theorem appendCompletesATruncatedInstruction : Obligations.AppendCompletesATruncatedInstruction := by
  intro s t pc0 op bytes hfault happ hlen
  rcases step_eq_fault_iff.mp (step_of_cycle_fault hfault) with ⟨op', hcut, he⟩ | ⟨i, -, he⟩
  · cases he
    obtain ⟨b, hop, rfl, -⟩ := fetch_eq_truncated_iff.mp hcut
    have hpc : t.pc = s.pc := by rw [(append_eq_some.mp happ).2]
    obtain ⟨i, hf, hi⟩ := exists_fetched (opcodeAt_append happ hop) (hpc ▸ hlen)
    exact ⟨i, hi, hf, step_of_fetched hf⟩
  · exact absurd he not_execFault_decodeError

/-- Settles O26: there is no byte at the pc, or it is Halt's, an ordinary instruction's, or Illegal, and the report
tells which. -/
theorem haltReasonsAreToldApart : Obligations.HaltReasonsAreToldApart := by
  intro s
  cases hop : opcodeAt s with
  | none =>
    have hend : s.mem.program.length ≤ s.pc.toNat := List.getElem?_eq_none_iff.mp hop
    simp [cycle_at_end hend, hend]
  | some b =>
    have hpc : ¬s.mem.program.length ≤ s.pc.toNat := Nat.not_le.mpr (pc_lt_of_opcodeAt hop)
    rcases byte_cases b with rfl | ⟨hb, hlt⟩ | hge
    · simp [cycle_of_opcode_halt hop, hpc]
    · have hzero : ¬b = 0#8 := hb
      have hpos : 1 ≤ b.toNat := Nat.one_le_iff_ne_zero.mpr fun h => hb (BitVec.eq_of_toNat_eq h)
      rcases cycle_of_opcode_ordinary hop hb hlt with h | ⟨f, h⟩
      · simp [h, hpc, hzero, hpos, hlt, Nat.le_of_lt_succ hlt]
      · simp [h, hpc, hzero, hlt]
    · have hzero : ¬b = 0#8 := by rintro rfl; revert hge; decide
      simp only [cycle_of_opcode_illegal hop hge, hpc]
      refine ⟨by simp, by simp [hzero], fun pc0 c => ⟨fun h => ?_, fun ⟨hp, hc, _⟩ => ?_⟩, by simp⟩
      · cases h; exact ⟨rfl, rfl, hge⟩
      · rw [hp, Option.some.inj hc]

/-- Settles O27: a cycle that does not run an instruction leaves the pc alone, and a fetched instruction's bytes end
within the program, so no sequential pc wraps. -/
theorem pcAfterEveryCycle : Obligations.PcAfterEveryCycle := by
  refine fun s hwf => ⟨fun hend => by rw [cycle_at_end hend], fun f h => ?_, fun i t hf h => ?_⟩
  · rw [cycle_of_fault (step_of_cycle_fault h)]
  · exact exec_pc ((step_of_fetched hf).symm.trans h) (pc_add_length_lt hf hwf.1)

/-- Settles O28. -/
theorem sequentialAdvanceNeverWraps : Obligations.SequentialAdvanceNeverWraps := fun _ _ hmax hf =>
  ⟨toNat_add_ofNat (pc_add_length_lt hf hmax), pc_add_length_le hf⟩

/-- Settles O29. -/
theorem programGrowsOnlyByAppend : Obligations.ProgramGrowsOnlyByAppend := by
  refine ⟨fun s => ?_, fun s t bytes h => ?_, fun s bytes => by simp [append_eq_some, Config.progMax]⟩
  · rcases cycle_fst_cases s with e | ⟨i, -, he⟩
    · rw [e]
    · exact exec_program he
  · obtain ⟨-, rfl⟩ := append_eq_some.mp h
    exact ⟨rfl, fun a ha => List.getElem?_append_left ha, rfl, rfl, rfl, rfl, rfl⟩

/-- Settles O31. -/
theorem onlyCmpWritesTheFlag : Obligations.OnlyCmpWritesTheFlag := by
  refine ⟨fun s i t h hi => exec_flag h hi, fun s ra rb => ⟨_, rfl, compareFlag_compared _ _⟩, fun s rt i hi => ?_⟩
  simp only [List.mem_cons, List.not_mem_nil, or_false] at hi
  rcases hi with rfl | rfl | rfl | rfl | rfl | rfl <;> exact ⟨_, condJump_eq _ rt s⟩

/-- Settles O32. -/
theorem onlyDivWritesTheRemainder : Obligations.OnlyDivWritesTheRemainder := fun _ _ _ h hi => exec_rem h hi

/-- Settles O33: with the remainder register of the next state cleared, the two outcomes are one. -/
theorem nothingReadsTheRemainder : Obligations.NothingReadsTheRemainder := by
  intro s w
  have hclear := clearRem_step_setRem s w
  refine ⟨fun f => ?_, fun t ht => ?_⟩
  · rw [← clearRem_eq_fault_iff, ← hclear, clearRem_eq_fault_iff]
  · exact clearRem_eq_next_iff.mp (hclear.trans (congrArg clearRem ht))

/-- Settles O35. -/
theorem haltAdvancesAndSignals : Obligations.HaltAdvancesAndSignals := by
  exact ⟨fun _ => rfl, rfl, fun s => ⟨s.advance 1, rfl, rfl, onlyRegsAndPc_setPc s _, cycle_of_opcode_halt⟩⟩

/-- Settles O36. -/
theorem illegalIsANormalHalt : Obligations.IllegalIsANormalHalt := by
  exact fun b hb => ⟨decode_illegal hb, fun s => ⟨s.advance 1, rfl, rfl, onlyRegsAndPc_setPc s _, fun hop =>
    cycle_of_opcode_illegal hop hb⟩⟩

/-- Settles O59: the Halt leaves the pc at the program's length, where the appended bytes begin. -/
theorem haltIsNotLatched : Obligations.HaltIsNotLatched := by
  intro s t u bytes i rest hwf hcycle hlast happ hd
  have hop : opcodeAt s = some 0 := ((haltReasonsAreToldApart s).2.1).mp (by rw [hcycle])
  rw [cycle_of_opcode_halt hop] at hcycle
  cases hcycle
  obtain ⟨-, rfl⟩ := append_eq_some.mp happ
  have hpc : (s.pc + BitVec.ofNat 64 1).toNat = s.mem.program.length := by
    rw [toNat_add_ofNat (Nat.lt_of_le_of_lt (hlast.le.trans hwf.1) (by decide)), hlast]
  refine ⟨step_of_fetched ⟨rest, ?_⟩, rfl⟩
  show decode ((s.mem.program ++ bytes).drop (s.pc + BitVec.ofNat 64 1).toNat) = _
  rw [hpc, List.drop_left, hd]

end Sys2Proof
end

section
/-! SUPPORT. A run to completion, cycle by cycle; and the obligation about it (spec/40_cycle_halt_illegal.md
section 5). -/

namespace Sys2Proof

open Sys2Proof.Machine

/-- The state after `n` cycles from `s`, whatever they report. -/
def stateAfter (n : Nat) (s : State) : State := (fun v => (cycle v).1)^[n] s

theorem runToCompletion_of_continues {s t : State} (h : cycle s = (t, .continues)) (fuel : Nat) :
    runToCompletion (fuel + 1) s = runToCompletion fuel t := by
  rw [runToCompletion, h]

theorem runToCompletion_of_stop {s t : State} {r : Report} (h : cycle s = (t, r)) (hr : r ≠ .continues) (fuel : Nat) :
    runToCompletion (fuel + 1) s = some (t, r) := by
  rw [runToCompletion, h]
  cases r with
  | continues => exact absurd rfl hr
  | _ => rfl

/-- A run that ends, ends with its first cycle that does not continue. -/
theorem first_stop_of_runToCompletion {fuel : Nat} {s t : State} {r : Report}
    (h : runToCompletion fuel s = some (t, r)) :
    r ≠ .continues ∧ ∃ n, n < fuel ∧ cycle (stateAfter n s) = (t, r) ∧
      ∀ m, m < n → (cycle (stateAfter m s)).2 = .continues := by
  induction fuel generalizing s with
  | zero => cases h
  | succ fuel ih =>
    rcases hc : cycle s with ⟨t', r'⟩
    by_cases hr : r' = .continues
    · subst hr
      rw [runToCompletion_of_continues hc] at h
      obtain ⟨hstop, n, hn, hlast, hbefore⟩ := ih h
      have hnext : ∀ m, stateAfter (m + 1) s = stateAfter m t' := fun m => by
        rw [stateAfter, Function.iterate_succ_apply, hc, stateAfter]
      refine ⟨hstop, n + 1, Nat.succ_lt_succ hn, hnext n ▸ hlast, fun m hm => ?_⟩
      cases m with
      | zero => exact congrArg Prod.snd hc
      | succ m => exact hnext m ▸ hbefore m (Nat.lt_of_succ_lt_succ hm)
    · rw [runToCompletion_of_stop hc hr] at h
      cases h
      exact ⟨hr, 0, Nat.succ_pos fuel, hc, fun m hm => absurd hm (Nat.not_lt_zero m)⟩

theorem runToCompletion_more_fuel {fuel : Nat} {s t : State} {r : Report} (h : runToCompletion fuel s = some (t, r))
    (more : Nat) : runToCompletion (fuel + more) s = some (t, r) := by
  induction fuel generalizing s with
  | zero => cases h
  | succ fuel ih =>
    rw [Nat.succ_add]
    rcases hc : cycle s with ⟨t', r'⟩
    by_cases hr : r' = .continues
    · subst hr
      rw [runToCompletion_of_continues hc] at h ⊢
      exact ih h
    · rw [runToCompletion_of_stop hc hr] at h ⊢
      exact h

/-- Settles O58, by induction on the fuel. -/
theorem runStopsAtTheFirstStop : Obligations.RunStopsAtTheFirstStop := by
  refine ⟨fun fuel s t r h => ?_, fun s t r hc hr => runToCompletion_of_stop hc hr⟩
  obtain ⟨hstop, n, hn, hlast, hbefore⟩ := first_stop_of_runToCompletion h
  exact ⟨hstop, ⟨stateAfter n s, hlast, n, hn, rfl, hbefore⟩, runToCompletion_more_fuel h⟩

end Sys2Proof
end

section
/-! SUPPORT. Division toward zero, the flag a comparison leaves, and the frames of the jumps. -/

namespace Sys2Proof.Machine

open Sys2Proof.Spec

variable {s t : State} {i : Instr}

/-! ### Quotient and remainder (R153, R154, R157) -/

theorem divRemainder_eq_tmod (a b : Int) : divRemainder a b = a.tmod b := by
  rw [divRemainder, divQuotient, Int.tmod_def, Int.mul_comm]

theorem eq_divQuotient_mul_add_divRemainder (a b : Int) : a = divQuotient a b * b + divRemainder a b := by
  unfold divRemainder; omega

theorem abs_divRemainder_lt (a : Int) {b : Int} (hb : b ≠ 0) : |divRemainder a b| < |b| := by
  rw [divRemainder_eq_tmod, Int.abs_eq_natAbs, Int.abs_eq_natAbs, Int.natAbs_tmod]
  exact Int.ofNat_lt.mpr (Nat.mod_lt _ (Int.natAbs_pos.mpr hb))

theorem divRemainder_eq_zero_or_sign_eq (a b : Int) :
    divRemainder a b = 0 ∨ (divRemainder a b).sign = a.sign := by
  rw [divRemainder_eq_tmod, Int.sign_tmod]
  by_cases h : b ∣ a
  · exact .inl (Int.tmod_eq_zero_of_dvd h)
  · exact .inr (if_neg h)

/-! ### The comparison flag (R180) -/

theorem compareFlag_eq_equal_iff {m n : Int} : compareFlag m n = .equal ↔ m = n := by
  unfold compareFlag; split_ifs <;> simp <;> omega

theorem compareFlag_eq_greater_iff {m n : Int} : compareFlag m n = .greater ↔ m > n := by
  unfold compareFlag; split_ifs <;> simp <;> omega

theorem compareFlag_eq_less_iff {m n : Int} : compareFlag m n = .less ↔ m < n := by
  unfold compareFlag; split_ifs <;> simp <;> omega

/-! ### What the families leave behind -/

/-- The common frame of Add, Sub and Mul (R149). -/
theorem arithDone_of_arith {f : Int → Int → Int} {a b d : RegIdx} (he : exec i s = arith f a b d s) :
    ArithDone i s d (f (s.readReg a).asS (s.readReg b).asS) :=
  ⟨_, he, by simpa using isInt_ofInt _, rfl, onlyRegsAndPc_writeReg_advance s d _ 4⟩

/-- The common frame of the conditional jumps (R181), for the flag values the jump is taken on. -/
theorem condJumpDone_of_condJump {taken : Flag → Bool} {rt : RegIdx} {P : Prop} (he : exec i s = condJump taken rt s)
    (hP : taken s.flag = true ↔ P) : CondJumpDone i s rt P := by
  refine ⟨_, he.trans (condJump_eq taken rt s), fun hp => ?_, fun hp => ?_, ?_⟩
  · rw [if_pos (hP.mpr hp)]
    exact toNat_ofNat_asU _
  · rw [if_neg fun h => hp (hP.mp h)]
    rfl
  · split
    · exact onlyRegsAndPc_setPc s _
    · exact onlyRegsAndPc_setPc s _

end Sys2Proof.Machine
end

section
/-! The obligations about numbers, the loads, arithmetic, jumps and comparison (spec/00_scope.md section 5,
spec/10_state.md section 2, spec/41_load_immediate.md to spec/44_compare_and_conditional_jumps.md). -/

namespace Sys2Proof

open Sys2Proof.Machine Sys2Proof.Spec

/-- Settles O18. -/
theorem conversionsAreTheResidues : Obligations.ConversionsAreTheResidues := by
  refine fun n => ⟨toU64_cast n, fun v => ?_⟩
  unfold toS64
  dsimp only
  split <;> omega

/-- Settles O19: both coercions read the payload's 64 bits. -/
theorem coercionsGiveOnePattern : Obligations.CoercionsGiveOnePattern := by
  intro t
  cases t with
  | int w =>
    refine ⟨by simp [toS64_toNat], by simp [toU64_toInt], fun v hv => ?_, fun _ hv => (nomatch hv)⟩
    cases hv
    refine ⟨rfl, fun h => ?_⟩
    rw [Value.asS_int] at h
    rw [Value.asU_int, Value.asS_int, BitVec.toInt_eq_toNat_cond] at *
    split at h <;> omega
  | ptr w =>
    refine ⟨by simp [toS64_toNat], by simp [toU64_toInt], fun _ hv => (nomatch hv), fun v hv => ?_⟩
    cases hv
    simp only [Value.asU_ptr, Value.asS_ptr, BitVec.toInt_eq_toNat_cond]
    refine ⟨trivial, fun h => ?_, fun h => ?_⟩
    · rw [if_pos (by omega)]
    · rw [if_neg (by omega)]; rfl

/-- Settles O38. -/
theorem loadPointerWritesThePointer : Obligations.LoadPointerWritesThePointer := by
  intro s rd w
  have hread : ((s.writeReg rd (.ptr w)).advance 10).readReg rd = .ptr w := by simp
  exact ⟨_, rfl, ⟨w, hread, rfl⟩, by rw [hread]; exact Value.noConfusion, rfl, onlyRegsAndPc_writeReg_advance s rd _ 10⟩

/-- Settles O39. -/
theorem addSubMulWriteTheWrappedResult : Obligations.AddSubMulWriteTheWrappedResult := fun _ _ _ _ =>
  ⟨arithDone_of_arith rfl, arithDone_of_arith rfl, arithDone_of_arith rfl⟩

/-- Settles O40: quotient and remainder are those of division toward zero. -/
theorem divWritesQuotientAndRemainder : Obligations.DivWritesQuotientAndRemainder := by
  intro s a b d hb
  rcases execDiv_cases a b d s with ⟨h, -⟩ | ⟨-, e⟩
  · exact absurd h hb
  · refine ⟨_, _, _, e, eq_divQuotient_mul_add_divRemainder _ _, abs_divRemainder_lt _ hb,
      divRemainder_eq_zero_or_sign_eq _ _, by simpa using isInt_ofInt _, Nat.mod_eq_of_lt (toU64_lt _), rfl,
      exec_regs (i := .div a b d) e, rfl, fun _ => rfl, heapSame_of_mem_eq rfl⟩

/-- Settles O41. -/
theorem divFaultsExactlyOnZero : Obligations.DivFaultsExactlyOnZero := by
  refine ⟨fun s a b d f => ⟨fun h => ?_, ?_⟩, fun s a b d h => ?_⟩
  · cases exec_eq_fault_iff.mp h with
    | divisionByZero hb => exact ⟨hb, rfl⟩
  · rintro ⟨hb, rfl⟩
    exact exec_eq_fault_iff.mpr (.divisionByZero hb)
  · have hb : (s.readReg b).asS = 0 := by rcases h with h | h <;> simp [h]
    exact exec_eq_fault_iff.mpr (.divisionByZero hb)

/-- Settles O42. -/
theorem jmpGoesToTheRegister : Obligations.JmpGoesToTheRegister := fun s rt =>
  ⟨_, rfl, toNat_ofNat_asU (s.readReg rt), onlyRegsAndPc_setPc s _⟩

/-- Settles O43. -/
theorem jumpForwardAddsOrFaults : Obligations.JumpForwardAddsOrFaults := by
  intro s rt
  rcases execJumpForward_cases rt s with ⟨h, e⟩ | ⟨h, e⟩ <;> unfold pcMax relBase at h
  · exact ⟨fun hlt => absurd hlt (by omega), fun _ => e⟩
  · exact ⟨fun hlt => ⟨_, e, Nat.mod_eq_of_lt hlt, onlyRegsAndPc_setPc s _⟩, fun hge => absurd hge (by omega)⟩

/-- Settles O44. -/
theorem jumpBackwardSubtractsOrFaults : Obligations.JumpBackwardSubtractsOrFaults := by
  intro s rt
  rcases execJumpBackward_cases rt s with ⟨h, e⟩ | ⟨h, e⟩
  · exact ⟨fun hle => absurd h (Nat.not_lt.mpr hle), fun _ => e⟩
  · exact ⟨fun _ => ⟨_, e, BitVec.toNat_ofNat _ _, onlyRegsAndPc_setPc s _⟩, fun hlt => absurd h (Nat.not_le.mpr hlt)⟩

/-- Settles O45. -/
theorem cmpLeavesTheSignedOrder : Obligations.CmpLeavesTheSignedOrder := fun _ _ _ =>
  ⟨_, rfl, compareFlag_eq_equal_iff, compareFlag_eq_greater_iff, compareFlag_eq_less_iff, rfl, fun _ _ => rfl, rfl,
    fun _ => rfl, heapSame_of_mem_eq rfl⟩

/-- Settles O46. -/
theorem jeqIsTakenOnEqual : Obligations.JeqIsTakenOnEqual := by
  refine ⟨fun _ _ => rfl, fun s rt => condJumpDone_of_condJump rfl jeqMatch_iff,
    fun s hop hcut => cycle_of_truncated hop hcut, fun s t hflag hreg h => ?_⟩
  cases (condJump_eq jeqMatch 0 s).symm.trans h
  rw [if_pos (jeqMatch_iff.mpr hflag), hreg]
  rfl

/-- Settles O47. -/
theorem orderedJumpsAreTakenAsNamed : Obligations.OrderedJumpsAreTakenAsNamed := fun _ _ =>
  ⟨condJumpDone_of_condJump rfl jgtMatch_iff, condJumpDone_of_condJump rfl jltMatch_iff,
    condJumpDone_of_condJump rfl jgeMatch_iff, condJumpDone_of_condJump rfl jleMatch_iff⟩

/-- Settles O48. -/
theorem jneIsTakenAfterAnUnequalComparison : Obligations.JneIsTakenAfterAnUnequalComparison := fun _ _ =>
  condJumpDone_of_condJump rfl jneMatch_iff

/-- Settles O49: each match set, on the flag a comparison leaves, is a signed relation. -/
theorem jumpsAfterCmpAreTheSignedRelations : Obligations.JumpsAfterCmpAreTheSignedRelations := by
  intro s a b t rt h
  cases h
  refine ⟨condJumpDone_of_condJump rfl (jeqMatch_iff.trans compareFlag_eq_equal_iff),
    condJumpDone_of_condJump rfl (jneMatch_iff.trans ?ne),
    condJumpDone_of_condJump rfl (jgtMatch_iff.trans compareFlag_eq_greater_iff),
    condJumpDone_of_condJump rfl (jltMatch_iff.trans compareFlag_eq_less_iff),
    condJumpDone_of_condJump rfl (jgeMatch_iff.trans ?ge), condJumpDone_of_condJump rfl (jleMatch_iff.trans ?le)⟩
  case ne =>
    have hne : compareFlag (s.readReg a).asS (s.readReg b).asS ≠ .notEqual :=
      ne_notEqual_of_compared (compareFlag_compared _ _)
    simp only [State.advance_flag, State.setFlag_flag, compareFlag_eq_greater_iff, compareFlag_eq_less_iff, hne,
      or_false]
    omega
  case ge =>
    simp only [State.advance_flag, State.setFlag_flag, compareFlag_eq_greater_iff, compareFlag_eq_equal_iff]
    omega
  case le =>
    simp only [State.advance_flag, State.setFlag_flag, compareFlag_eq_less_iff, compareFlag_eq_equal_iff]
    omega

end Sys2Proof
end

section
/-! SUPPORT. The heap: the block a write starts from, what every slot and every length reads as after a write, and that
a canonical memory is determined by its reads (spec/20_memory.md section 2). -/

namespace Sys2Proof.Machine

open Sys2Proof.Spec

/-! ### The block under an identifier, empty where there is none -/

/-- The block that a write to an identifier starts from (R55). -/
def Memory.blockOrEmpty (m : Memory) (id : Nat) : Block := (m.block? id).getD Block.empty

variable {m m' : Memory} {id id' k k' : Nat} {v x : Value}

theorem Memory.blockOrEmpty_heapWrite (m : Memory) (id k : Nat) (v : Value) (id' : Nat) :
    (m.heapWrite id k v).blockOrEmpty id' =
      if id' = id then (m.blockOrEmpty id).store k v else m.blockOrEmpty id' := by
  unfold Memory.blockOrEmpty
  rw [Memory.block?_heapWrite]
  split <;> rfl

theorem Memory.blockOrEmpty_len (m : Memory) (id : Nat) :
    (m.blockOrEmpty id).len = ((m.block? id).map Block.len).getD 0 := by
  unfold Memory.blockOrEmpty
  cases m.block? id <;> rfl

theorem Memory.heapRead_eq_ite (m : Memory) (id k : Nat) :
    m.heapRead id k = if k < (m.blockOrEmpty id).len then some ((m.blockOrEmpty id).slot k) else none := by
  unfold Memory.heapRead Memory.blockOrEmpty
  cases m.block? id with
  | none => rfl
  | some b => rfl

/-- Past its length a canonical block, or none, has only `Int(0)`. -/
theorem Memory.blockOrEmpty_slot_past_end (hm : m.wf) (h : (m.blockOrEmpty id).len ≤ k) :
    (m.blockOrEmpty id).slot k = Value.zero := by
  unfold Memory.blockOrEmpty at *
  cases hb : m.block? id with
  | none => rfl
  | some b =>
    rw [hb] at h
    exact Block.slot_past_end (Memory.block?_wf hm hb).2.2.2 h

/-! ### Reads after a write (R55) -/

theorem Memory.heapRead_heapWrite_same (m : Memory) (id k : Nat) (v : Value) :
    (m.heapWrite id k v).heapRead id k = some v := by
  simp [Memory.heapRead_eq_ite, Memory.blockOrEmpty_heapWrite]

theorem Memory.heapRead_heapWrite_block_ne (h : id' ≠ id) :
    (m.heapWrite id k v).heapRead id' k' = m.heapRead id' k' := by
  simp [Memory.heapRead_eq_ite, Memory.blockOrEmpty_heapWrite, h]

theorem Memory.heapRead_heapWrite_slot_ne (h : k' ≠ k) : (m.heapWrite id k v).heapRead id k' =
    if k' < (m.blockOrEmpty id).len ∨ k' < k then some ((m.blockOrEmpty id).slot k') else none := by
  have hlt : k' < max (m.blockOrEmpty id).len (k + 1) ↔ k' < (m.blockOrEmpty id).len ∨ k' < k := by omega
  simp [Memory.heapRead_eq_ite, Memory.blockOrEmpty_heapWrite, Block.slot_store_other _ h, hlt]

/-- A slot that existed and is not the one written reads as before. -/
theorem Memory.heapRead_heapWrite_of_some (h : ¬(id' = id ∧ k' = k)) (hx : m.heapRead id' k' = some x) :
    (m.heapWrite id k v).heapRead id' k' = some x := by
  by_cases hid : id' = id
  · subst hid
    have hk : k' ≠ k := fun e => h ⟨rfl, e⟩
    rw [Memory.heapRead_eq_ite] at hx
    rw [Memory.heapRead_heapWrite_slot_ne hk]
    split at hx
    · next hlt => rw [if_pos (.inl hlt), hx]
    · cases hx
  · rw [Memory.heapRead_heapWrite_block_ne hid, hx]

/-- A slot that did not exist exists when growth made it, and is `Int(0)`. -/
theorem Memory.heapRead_heapWrite_of_none (hm : m.wf) (h : ¬(id' = id ∧ k' = k)) (hx : m.heapRead id' k' = none) :
    (m.heapWrite id k v).heapRead id' k' = if id' = id ∧ k' < k then some Value.zero else none := by
  by_cases hid : id' = id
  · subst hid
    have hk : k' ≠ k := fun e => h ⟨rfl, e⟩
    have hlen : (m.blockOrEmpty id').len ≤ k' := by
      rw [Memory.heapRead_eq_ite] at hx
      split at hx
      · cases hx
      · omega
    rw [Memory.heapRead_heapWrite_slot_ne hk, Memory.blockOrEmpty_slot_past_end hm hlen]
    simp [Nat.not_lt.mpr hlen]
  · rw [Memory.heapRead_heapWrite_block_ne hid, hx, if_neg fun e => hid e.1]

theorem Memory.block?_len_heapWrite (m : Memory) (id k : Nat) (v : Value) (id' : Nat) :
    ((m.heapWrite id k v).block? id').map Block.len =
      if id' = id then some (max (((m.block? id).map Block.len).getD 0) (k + 1)) else (m.block? id').map Block.len := by
  rw [Memory.block?_heapWrite]
  split
  · rw [← Memory.blockOrEmpty_len]; rfl
  · rfl

/-! ### Canonical memories are determined by their reads -/

theorem Memory.ext_block? (hm : m.wf) (hm' : m'.wf) (hp : m.program = m'.program)
    (h : ∀ id, m.block? id = m'.block? id) : m = m' := by
  have hheap : m.heap = m'.heap := Sparse.ext hm.2.1 hm'.2.1 h
  cases m; cases m'
  simp_all

/-- A canonical block lists exactly the slots that do not hold `Int(0)`. -/
theorem Block.get?_slots {b : Block} (hb : b.wf) (k : Nat) :
    Sparse.get? k b.slots = if b.slot k = Value.zero then none else some (b.slot k) := by
  unfold Block.slot
  cases hg : Sparse.get? k b.slots with
  | none => rfl
  | some v =>
    have hv : v ≠ Value.zero := (hb.2.2.2 _ (Sparse.mem_of_get? hg)).2
    exact (if_neg hv).symm

theorem Block.ext_slot {b b' : Block} (hb : b.wf) (hb' : b'.wf) (hlen : b.len = b'.len)
    (h : ∀ k, k < b.len → b.slot k = b'.slot k) : b = b' := by
  have hslot : ∀ k, b.slot k = b'.slot k := fun k => by
    by_cases hk : k < b.len
    · exact h k hk
    · rw [Block.slot_past_end hb.2.2.2 (by omega), Block.slot_past_end hb'.2.2.2 (by omega)]
  have hslots : b.slots = b'.slots := Sparse.ext hb.2.2.1 hb'.2.2.1 fun k => by
    rw [Block.get?_slots hb, Block.get?_slots hb', hslot k]
  cases b; cases b'
  simp_all

theorem Memory.block?_eq_of_reads (hm : m.wf) (hm' : m'.wf)
    (hlen : (m.block? id).map Block.len = (m'.block? id).map Block.len)
    (hread : ∀ k, m.heapRead id k = m'.heapRead id k) : m.block? id = m'.block? id := by
  cases hb : m.block? id with
  | none => cases hb' : m'.block? id <;> simp_all
  | some b =>
    cases hb' : m'.block? id with
    | none => simp_all
    | some b' =>
      rw [hb, hb'] at hlen
      have hll : b.len = b'.len := Option.some.inj hlen
      refine congrArg some (Block.ext_slot (Memory.block?_wf hm hb) (Memory.block?_wf hm' hb') hll fun k hk => ?_)
      have hk' := hread k
      unfold Memory.heapRead at hk'
      simpa [hb, hb', hk, hll ▸ hk] using hk'

end Sys2Proof.Machine
end

section
/-! The obligations about memory (spec/20_memory.md). -/

namespace Sys2Proof

open Sys2Proof.Machine Sys2Proof.Spec

/-- Settles O55. -/
theorem heapReadsAfterAWrite : Obligations.HeapReadsAfterAWrite := fun m id k v =>
  ⟨m.heapRead_heapWrite_same id k v, fun _ _ hne =>
    ⟨fun _ hx => Memory.heapRead_heapWrite_of_some hne hx, fun hm hx => Memory.heapRead_heapWrite_of_none hm hne hx⟩⟩

/-- Settles O56: both orders leave the same block under every identifier. -/
theorem writesToDifferentBlocksCommute : Obligations.WritesToDifferentBlocksCommute := by
  intro m id id' k k' v v' hm hid hid' hk hk' hne
  refine Memory.ext_block? (Memory.heapWrite_wf (Memory.heapWrite_wf hm hid hk v) hid' hk' v')
    (Memory.heapWrite_wf (Memory.heapWrite_wf hm hid' hk' v') hid hk v) rfl fun j => ?_
  simp only [Memory.block?_heapWrite, if_neg hne, if_neg hne.symm]
  by_cases hj : j = id
  · subst hj; simp [hne]
  · simp [hj]

/-- Settles O57: a canonical block lists exactly its slots that are not `Int(0)`, and a rising list is determined by
what its keys read as. -/
theorem canonicalMemoriesThatReadAlikeAreEqual : Obligations.CanonicalMemoriesThatReadAlikeAreEqual :=
  fun _ _ hm hm' hp hreads => Memory.ext_block? hm hm' (List.ext_getElem? hp) fun id =>
    Memory.block?_eq_of_reads hm hm' (hreads id).1 (hreads id).2

end Sys2Proof
end

section
/-! SUPPORT. Write, WritePointer and Dereference: what a store leaves behind, what a following Dereference finds, and
how block lengths move (R200 to R204). -/

namespace Sys2Proof.Machine

open Sys2Proof.Spec

variable {s t : State} {i : Instr} {rb ro rd : RegIdx} {v : Value}

/-! ### The retagged block-id register (R200) -/

theorem isPtr_ofAddr_asU (v : Value) : IsPtr (Value.ofAddr v.asU) v.asU := ⟨_, rfl, toNat_ofNat_asU v⟩

/-- The tag changes, the identifier does not: every register still reads as the same unsigned number. -/
theorem asU_readReg_retagBlockReg (s : State) (rb r : RegIdx) :
    ((retagBlockReg s rb).readReg r).asU = (s.readReg r).asU := by
  by_cases h : r = rb
  · subst h
    rw [readReg_retagBlockReg_same]
    exact Value.ofAddr_asU _
  · rw [readReg_retagBlockReg_other s h]

/-! ### Stores -/

/-- What Write and WritePointer leave: the heap write, the retagged block-id register, the pc past eleven bytes. -/
def stored (rb ro : RegIdx) (v : Value) (s : State) : State :=
  (retagBlockReg (s.heapWrite (blockId s rb) (slotIndex s ro) v) rb).advance 11

@[simp] theorem stored_mem (rb ro : RegIdx) (v : Value) (s : State) :
    (stored rb ro v s).mem = s.mem.heapWrite (blockId s rb) (slotIndex s ro) v := rfl

theorem exec_write (rb ro : RegIdx) (w : Word) (s : State) :
    exec (.write rb ro w) s = .next (stored rb ro (Value.ofInt (smDecode w)) s) := rfl

theorem exec_writePointer (rb ro : RegIdx) (w : Word) (s : State) :
    exec (.writePointer rb ro w) s = .next (stored rb ro (.ptr w) s) := rfl

theorem asU_readReg_stored (rb ro : RegIdx) (v : Value) (s : State) (r : RegIdx) :
    ((stored rb ro v s).readReg r).asU = (s.readReg r).asU :=
  asU_readReg_retagBlockReg (s.heapWrite (blockId s rb) (slotIndex s ro) v) rb r

theorem readReg_stored_same (rb ro : RegIdx) (v : Value) (s : State) :
    (stored rb ro v s).readReg rb = Value.ofAddr (s.readReg rb).asU :=
  readReg_retagBlockReg_same (s.heapWrite (blockId s rb) (slotIndex s ro) v) rb

theorem accessBlockLength_stored (rb ro : RegIdx) (v : Value) (s : State) (id : Nat) :
    accessBlockLength (stored rb ro v s) id =
      if id = (s.readReg rb).asU then some (max ((accessBlockLength s id).getD 0) ((s.readReg ro).asU + 1))
      else accessBlockLength s id := by
  unfold accessBlockLength
  rw [stored_mem, Memory.block?_len_heapWrite]
  unfold blockId slotIndex
  split
  · next h => rw [h]
  · rfl

theorem accessSlot_stored_same (rb ro : RegIdx) (v : Value) (s : State) :
    accessSlot (stored rb ro v s) (s.readReg rb).asU (s.readReg ro).asU = some v :=
  Memory.heapRead_heapWrite_same s.mem (blockId s rb) (slotIndex s ro) v

/-- Below the length it had, and below the index, the written block has the slots it had, or `Int(0)` past its end. -/
theorem accessSlot_stored_slot_ne {k : Nat} (h : k ≠ (s.readReg ro).asU) :
    accessSlot (stored rb ro v s) (s.readReg rb).asU k =
      if k < (accessBlockLength s (s.readReg rb).asU).getD 0 ∨ k < (s.readReg ro).asU
      then some ((s.mem.blockOrEmpty (s.readReg rb).asU).slot k) else none := by
  unfold accessBlockLength
  rw [← Memory.blockOrEmpty_len]
  exact Memory.heapRead_heapWrite_slot_ne h

theorem storeDone_of_stored {P : Value → Prop} (he : exec i s = .next (stored rb ro v s)) (hv : P v) :
    StoreDone i s rb ro P := by
  refine ⟨_, he, ⟨v, accessSlot_stored_same rb ro v s, hv⟩, ?len, fun k hk hlt => ?older, fun hwf k hge hlt => ?grown,
    fun id hid => ⟨?otherLen, fun k => Memory.heapRead_heapWrite_block_ne hid⟩, ?tag, rfl, fun r hr => ?regs,
    ⟨rfl, rfl⟩, fun _ => rfl⟩
  case len => rw [accessBlockLength_stored, if_pos rfl]
  case older =>
    rw [accessSlot_stored_slot_ne hk, if_pos (.inl hlt), accessSlot, Memory.heapRead_eq_ite, Memory.blockOrEmpty_len]
    exact (if_pos hlt).symm
  case grown =>
    refine ⟨Value.zero, ?_, 0, rfl, rfl⟩
    rw [accessSlot_stored_slot_ne (by omega), if_pos (.inr hlt)]
    rw [accessBlockLength, ← Memory.blockOrEmpty_len] at hge
    exact congrArg some (Memory.blockOrEmpty_slot_past_end hwf hge)
  case otherLen => rw [accessBlockLength_stored, if_neg hid]
  case tag => exact readReg_stored_same rb ro v s ▸ isPtr_ofAddr_asU _
  case regs => exact readReg_retagBlockReg_other _ (List.ne_of_not_mem_cons hr)

/-! ### Dereference -/

/-- What Dereference leaves: the retagged block-id register, then the destination, the pc past four bytes. -/
def dereferenced (rb rd : RegIdx) (v : Value) (s : State) : State := ((retagBlockReg s rb).writeReg rd v).advance 4

@[simp] theorem readReg_dereferenced_dest (rb rd : RegIdx) (v : Value) (s : State) :
    (dereferenced rb rd v s).readReg rd = v := by
  simp [dereferenced]

theorem readReg_dereferenced_blockReg (h : rb ≠ rd) :
    (dereferenced rb rd v s).readReg rb = Value.ofAddr (s.readReg rb).asU :=
  ((retagBlockReg s rb).readReg_writeReg_other h v).trans (readReg_retagBlockReg_same s rb)

theorem exec_dereference_of_slot (h : accessSlot s (s.readReg rb).asU (s.readReg ro).asU = some v) :
    exec (.dereference rb ro rd) s = .next (dereferenced rb rd v s) := by
  rcases execDereference_cases rb ro rd s with ⟨hn, -⟩ | ⟨x, hx, e⟩
  · cases hn.symm.trans h
  · cases hx.symm.trans h; exact e

/-- A Dereference with the same registers as a store that went before finds the value stored. -/
theorem exec_dereference_stored (rb ro rd : RegIdx) (v : Value) (s : State) :
    exec (.dereference rb ro rd) (stored rb ro v s) = .next (dereferenced rb rd v (stored rb ro v s)) := by
  apply exec_dereference_of_slot
  rw [asU_readReg_stored, asU_readReg_stored]
  exact accessSlot_stored_same rb ro v s

theorem exists_accessSlot {id k n : Nat} (hn : accessBlockLength s id = some n) (hk : k < n) :
    ∃ x, accessSlot s id k = some x := by
  unfold accessSlot
  rw [Memory.heapRead_eq_ite, Memory.blockOrEmpty_len]
  exact ⟨_, if_pos (by rw [accessBlockLength] at hn; rw [hn]; exact hk)⟩

/-! ### Block lengths -/

/-- An instruction makes no block, shortens none, and lengthens one only by a store under its identifier. -/
theorem accessBlockLength_of_exec (h : exec i s = .next t) (id : Nat) :
    accessBlockLength t id = accessBlockLength s id ∨
    ∃ rb ro w n, (i = .write rb ro w ∨ i = .writePointer rb ro w) ∧ id = (s.readReg rb).asU ∧
      accessBlockLength t id = some n ∧ (accessBlockLength s id).getD 0 ≤ n := by
  rcases exec_mem h with hm | ⟨rb, ro, w, v, hi, hm⟩
  · exact .inl (by rw [accessBlockLength, hm, accessBlockLength])
  · have hlen := Memory.block?_len_heapWrite s.mem (blockId s rb) (slotIndex s ro) v id
    rw [← hm] at hlen
    by_cases hid : id = blockId s rb
    · subst hid
      rw [if_pos rfl] at hlen
      exact .inr ⟨rb, ro, w, _, hi, rfl, hlen, Nat.le_max_left _ _⟩
    · rw [if_neg hid] at hlen
      exact .inl hlen

end Sys2Proof.Machine
end

section
/-! The obligations about heap access and the registers written (spec/45_heap_access.md, spec/10_state.md sections 2
and 7). -/

namespace Sys2Proof

open Sys2Proof.Machine Sys2Proof.Spec

/-- Settles O50. -/
theorem writesStoreAndRetag : Obligations.WritesStoreAndRetag := fun s rb ro w =>
  ⟨storeDone_of_stored (exec_write rb ro w s) (isInt_ofInt_smDecode w),
    storeDone_of_stored (exec_writePointer rb ro w s) ⟨w, rfl, rfl⟩⟩

/-- Settles O53: a store keeps both registers' unsigned readings, even where they are one register. -/
theorem writeThenDereferenceReturnsTheValue : Obligations.WriteThenDereferenceReturnsTheValue := by
  refine fun s rb ro rd w => ⟨fun t h => ?_, fun t h => ?_⟩
  · cases (exec_write rb ro w s).symm.trans h
    exact ⟨_, exec_dereference_stored rb ro rd _ s, by simpa using isInt_ofInt_smDecode w⟩
  · cases (exec_writePointer rb ro w s).symm.trans h
    exact ⟨_, exec_dereference_stored rb ro rd _ s, w, by simp, rfl⟩

/-- A store under an identifier with no block makes one of `index + 1` slots, `Int(0)` below the index. -/
theorem zeroFilled_of_stored {s : State} {rb ro : RegIdx} (v : Value)
    (h : accessBlockLength s (s.readReg rb).asU = none) :
    accessBlockLength (stored rb ro v s) (s.readReg rb).asU = some ((s.readReg ro).asU + 1) ∧
      ∀ k, k < (s.readReg ro).asU →
        ∃ x, accessSlot (stored rb ro v s) (s.readReg rb).asU k = some x ∧ IsInt x 0 := by
  refine ⟨by simp [accessBlockLength_stored, h], fun k hk => ⟨Value.zero, ?_, 0, rfl, rfl⟩⟩
  have hnone : s.mem.block? (s.readReg rb).asU = none := Option.map_eq_none_iff.mp h
  rw [accessSlot_stored_slot_ne (Nat.ne_of_lt hk), if_pos (.inr hk), Memory.blockOrEmpty, hnone]
  rfl

/-- Settles O54. -/
theorem firstWriteMakesAZeroFilledBlock : Obligations.FirstWriteMakesAZeroFilledBlock := by
  intro s rb ro w i t hi hnone h
  rcases hi with rfl | rfl
  · cases (exec_write rb ro w s).symm.trans h
    exact zeroFilled_of_stored _ hnone
  · cases (exec_writePointer rb ro w s).symm.trans h
    exact zeroFilled_of_stored _ hnone

/-- Settles O51. -/
theorem dereferenceCopiesTheSlot : Obligations.DereferenceCopiesTheSlot := by
  intro s rb ro rd n hn hlt
  obtain ⟨v, hv⟩ := exists_accessSlot hn hlt
  have he := exec_dereference_of_slot (rd := rd) hv
  exact ⟨_, he, by rw [hv, readReg_dereferenced_dest],
    fun hne => readReg_dereferenced_blockReg hne ▸ isPtr_ofAddr_asU _, rfl, exec_regs he, ⟨rfl, rfl⟩, fun _ => rfl,
    heapSame_of_mem_eq rfl⟩

/-- Settles O52. -/
theorem dereferenceFaultsWithoutASlot : Obligations.DereferenceFaultsWithoutASlot := fun s _ _ _ h =>
  ⟨_, _, exec_eq_fault_iff.mpr (.noSlot ((heapRead_eq_none_iff s _ _).mpr h)), toNat_ofNat_asU _, toNat_ofNat_asU _⟩

/-- Settles O30: a block's length is kept by every instruction but a store under its identifier, which leaves it at
least as long. -/
theorem heapOnlyGrows : Obligations.HeapOnlyGrows := by
  refine ⟨fun s t id n h hn => ?grows, fun s t i id h hnone hsome => ?made, fun p s rb ro imm i t hp hi h => ?names,
    fun _ => rfl⟩
  case grows =>
    subst h
    rcases cycle_fst_cases s with e | ⟨i, -, he⟩
    · exact ⟨n, by rw [e, hn], Nat.le_refl n⟩
    · rcases accessBlockLength_of_exec he id with hsame | ⟨_, _, _, n', -, -, hn', hle⟩
      · exact ⟨n, hsame.trans hn, Nat.le_refl n⟩
      · exact ⟨n', hn', by simpa [hn] using hle⟩
  case made =>
    rcases accessBlockLength_of_exec h id with hsame | ⟨rb, ro, w, _, hi, hid, -, -⟩
    · obtain ⟨n, hn⟩ := hsome
      cases (hn.symm.trans hsame).trans hnone
    · exact ⟨rb, ro, w, hi, hid⟩
  case names =>
    have hid : (s.readReg rb).asU = p.toNat := by rw [hp]; rfl
    rw [← hid]
    rcases hi with rfl | rfl
    · cases (exec_write rb ro imm s).symm.trans h
      exact ⟨_, by rw [accessBlockLength_stored, if_pos rfl]⟩
    · cases (exec_writePointer rb ro imm s).symm.trans h
      exact ⟨_, by rw [accessBlockLength_stored, if_pos rfl]⟩

theorem exists_isInt_of_arith {s t : State} {f : Int → Int → Int} {a b rd : RegIdx} (h : arith f a b rd s = .next t) :
    ∃ n, IsInt (t.readReg rd) n := by
  obtain rfl := arith_eq.mp h
  exact ⟨_, by simpa using isInt_ofInt _⟩

/-- An arithmetic instruction leaves an `Int` in its destination. -/
theorem exists_isInt_of_exec_arith {s t : State} {i : Instr} {a b rd : RegIdx} (h : exec i s = .next t)
    (hi : i = .add a b rd ∨ i = .sub a b rd ∨ i = .mul a b rd ∨ i = .div a b rd) : ∃ n, IsInt (t.readReg rd) n := by
  rcases hi with rfl | rfl | rfl | rfl
  · exact exists_isInt_of_arith (f := addExact) h
  · exact exists_isInt_of_arith (f := subExact) h
  · exact exists_isInt_of_arith (f := mulExact) h
  · rcases execDiv_cases a b rd s with ⟨-, e⟩ | ⟨-, e⟩
    · cases e.symm.trans h
    · cases e.symm.trans h; exact ⟨_, by simpa using isInt_ofInt _⟩

/-- Settles O34. -/
theorem registersAreWrittenAsTabulated : Obligations.RegistersAreWrittenAsTabulated := by
  refine fun s i t h => ⟨exec_regs h, fun rd imm hi => ?load, fun rd imm hi => ?loadPointer,
    fun a b rd hi => exists_isInt_of_exec_arith h hi, fun rb ro imm hi => ?store, fun rb ro rd hi => ?dereference⟩
  case load => subst hi; exact ⟨_, isInt_of_exec_load h⟩
  case loadPointer => subst hi; cases h; exact ⟨_, imm, by simp, rfl⟩
  case store =>
    rcases hi with rfl | rfl
    · cases (exec_write rb ro imm s).symm.trans h
      exact readReg_stored_same rb ro _ s ▸ isPtr_ofAddr_asU _
    · cases (exec_writePointer rb ro imm s).symm.trans h
      exact readReg_stored_same rb ro _ s ▸ isPtr_ofAddr_asU _
  case dereference =>
    subst hi
    cases hv : accessSlot s (s.readReg rb).asU (s.readReg ro).asU with
    | none => cases (exec_eq_fault_iff.mpr (.noSlot hv)).symm.trans h
    | some v =>
      cases (exec_dereference_of_slot hv).symm.trans h
      exact ⟨by rw [readReg_dereferenced_dest],
        fun hne => readReg_dereferenced_blockReg hne ▸ isPtr_ofAddr_asU _⟩

end Sys2Proof
end
